-- ==== Sys2Proof/Word.lean ====
section
/-! DEFINITION. The widths of the block's values: 64-bit mixing words, addresses, lengths and counts (`u64`), the 32-bit
HASH32 seed (`u32`) and bytes (`u8`). spec/00_scope.md R9 (`WORD`, `AW`, `CW`), R10, R11. -/

namespace Sys2Proof

/-- `u64` (R10), the parameter `WORD`: a mixing word, a descriptor or response word. Addition on it wraps silently
(R11, R95). -/
abbrev Word := BitVec 64

/-- What holds a message address: a descriptor word, of which an address is the low `AW` bits (R9, R71), by default all. -/
abbrev Address := BitVec 64

/-- What holds a length or the processed count: a 64-bit word, of which each is the low `CW` bits (R9, R71), by default all. -/
abbrev Count := BitVec 64

/-- `u32` (R10): a 32-bit read and the HASH32 seed. -/
abbrev Half := BitVec 32

/-- `u8` (R10): one byte of message memory or of the carry buffer. -/
abbrev Byte := BitVec 8

end Sys2Proof
end

