-- ==== Sys2Proof/Config.lean ====
section
/-! DEFINITION. The type of the block's configuration, the parameters of spec/00_scope.md R9 that the spec decided or supplied
from general knowledge ("A model takes the last two kinds as configuration arguments whose default is the value shown"). The
default value is `params` of Machine/Params.lean; the machine runs at the configuration that its State carries
(`State.config`), and State.reset carries the default (log entry 15). And the block's free values: what the spec calls "unspecified" (spec/10_state.md R25, R35; spec/60_exceptions.md
R185; spec/93_implementation_defined.md ID15, ID16). Each is a constant without a body, applied to the number of the draw
(`State.draws`), so that nothing can evaluate it or prove a value of it. Draw 0 is what the storage holds after power-on.
The parameters of R9 that the document fixes (`WORD`, `STRIPE`, `MIX_ROT` and so on) are plain definitions of
Machine/Params.lean; the open parameter `READABLE` is the plain data `State.unreadable` (log entry 5). -/

namespace Sys2Proof

/-- `BYTE_ORDER` (R9, D5): which byte of a word is least significant. -/
inductive ByteOrder where
  | little
  | big
  deriving DecidableEq, Repr

/-- `ROT_DIR` (R9, D29): the direction of the fixed bit rotation. -/
inductive RotDir where
  | left
  | right
  deriving DecidableEq, Repr

/-- The words of one diffusion step (R101): `H[p] += H[q]`, `H[t] ^= H[p]`, rotate `H[q]`. -/
structure EndWords where
  p : Fin 12
  q : Fin 12
  t : Fin 12
  deriving DecidableEq, Repr

/-- The words of one short-mix step (R111): rotate `h[x]`, `h[x] += h[y]`, `h[z] ^= h[x]`. -/
structure ShortMixWords where
  x : Fin 4
  y : Fin 4
  z : Fin 4
  deriving DecidableEq, Repr

/-- The words of one short-end step (R112): `h[x] ^= h[y]`, rotate `h[y]`, `h[x] += h[y]`. -/
structure ShortEndWords where
  x : Fin 4
  y : Fin 4
  deriving DecidableEq, Repr

/-- The words that stripe step `i` reads and writes beside `S[i]` (R131): `S[to] ^= S[from]`, `S[pred] ^= S[i]`, at the end
`S[pred] += S[succ]`. -/
structure MixWords where
  xorTo : Fin 12
  xorFrom : Fin 12
  pred : Fin 12
  succ : Fin 12
  deriving DecidableEq, Repr

/-- The configuration of the block: R9's parameters of the kinds "decision" and "general knowledge". -/
structure Params where
  /-- `K` (D7). -/
  K : Word
  /-- `SHORT_MIX_ROT` (D8). -/
  shortMixRot : Vector Nat 12
  /-- `BYTE_ORDER` (D5). -/
  byteOrder : ByteOrder
  /-- `ROT_DIR` (D29). -/
  rotDir : RotDir
  /-- The operand pattern of R101 (D12). -/
  endWords : Vector EndWords 12
  /-- The operand pattern of R111 (D8). -/
  shortMixWords : Vector ShortMixWords 12
  /-- The operand pattern of R112 (D9). -/
  shortEndWords : Vector ShortEndWords 11
  /-- The operand pattern of R131 (D11). -/
  mixWords : Vector MixWords 12
  /-- The working words that take a half-stripe's two reads before the mix (R113, R114; D10). -/
  beforeMix : Fin 4 × Fin 4
  /-- The working words that take a full stripe's last two reads, after the mix (R113; D10). -/
  afterMix : Fin 4 × Fin 4
  /-- The working words that take the tail's first eight bytes and the rest of it (R115; D10). -/
  tailWords : Fin 4 × Fin 4
  /-- `AW` (D4): width in bits of an address, at most that of the descriptor word `W3` which carries it (R71). -/
  addressWidth : Fin 65
  /-- `CW` (D4): width in bits of the processed count and of a length, at most that of the descriptor word `W4` which carries
  the length (R71). -/
  countWidth : Fin 65
  /-- `N_CTX` (D22): streaming contexts in the block, at least one: 0 is read as 1. -/
  contexts : Nat
  deriving DecidableEq, Repr

end Sys2Proof

namespace Sys2Proof.Config

/-- The twelve unspecified words of `ACC` at the given draw (R35, R185). Log entries 3 and 4. -/
opaque freeAcc : Nat → Vector Word 12

/-- The 192 unspecified bytes of `CARRY` at the given draw (R25, R35, R146, R185). Log entries 3 and 4. -/
opaque freeCarry : Nat → Vector Byte 192

/-- The unspecified `CLEN` at the given draw: unspecified, but within the legal values 0 to 191 of R26 and R32.
Log entries 3 and 4. -/
opaque freeClen : Nat → Fin 192

/-- The unspecified `PCNT` at the given draw (R35, R185). Log entries 3 and 4. -/
opaque freePcnt : Nat → Word

/-- The unspecified `OVF` at the given draw (R28, R35, R185). Log entries 3 and 4. -/
opaque freeOvf : Nat → Bool

end Sys2Proof.Config
end

