-- ==== Sys2Proof/Machine/Params.lean ====
section
/-! DEFINITION. The values of the parameters of spec/00_scope.md R9, under R9's names in lower camel case. Those the document
fixes are plain definitions: they are wired (R201). Those the spec decided or supplied from general knowledge are the fields
of the configuration `params`: a function of words and bytes takes the configuration as the optional argument `P`, and a
function of the state uses the one that the state carries. They stand under Machine/ so that a later test can mend one; log
entries 11 and 15. -/

namespace Sys2Proof.Machine

/-! ### Fixed by the document -/

/-- `NWORDS`: words in the accumulator (R9). -/
abbrev nWords : Nat := 12

/-- `STRIPE`: bytes per bulk stripe (R9). -/
abbrev stripe : Nat := 96

/-- `THRESH`: the short/bulk threshold in bytes, and the bound on the carry buffer (R9). -/
abbrev thresh : Nat := 192

/-- `SHORT_STRIPE`: bytes per short-mixer stripe; a half-stripe is 16 (R9). -/
abbrev shortStripe : Nat := 32

/-- `END_ROUNDS`: repetitions of the diffusion round (R9). -/
abbrev endRounds : Nat := 3

/-- `MIX_ROT`: the rotate amount of bulk stripe step `i` (R9). -/
def mixRot : Vector Nat 12 := #v[11, 32, 43, 31, 17, 28, 39, 57, 55, 54, 22, 46]

/-- `END_ROT`: the rotate amount of diffusion step `j` (R9). -/
def endRot : Vector Nat 12 := #v[44, 15, 34, 21, 38, 33, 10, 13, 38, 53, 42, 54]

/-- `SHORT_END_ROT`: the rotate amount of short-end step `j`, eleven steps (R9, spec/90_conflicts.md C1). -/
def shortEndRot : Vector Nat 11 := #v[15, 52, 26, 51, 28, 9, 47, 54, 32, 25, 63]

/-! ### Decided by the spec, or supplied by it from general knowledge: the configuration -/

/-- The default of `K`: the fixed 64-bit constant, the initial state filler (R9, D7). -/
def K : Word := 0xdeadbeefdeadbeef

/-- The default of `SHORT_MIX_ROT`: the rotate amount of short-mix step `j` (R9, D8). -/
def shortMixRot : Vector Nat 12 := #v[50, 52, 30, 41, 54, 48, 38, 37, 62, 34, 5, 36]

/-- The default words of diffusion step `j` (R101, D12): `p = j+11`, `q = j+1`, `t = j+2`, all mod 12. -/
def endWords : Vector EndWords 12 :=
  #v[⟨11, 1, 2⟩, ⟨0, 2, 3⟩, ⟨1, 3, 4⟩, ⟨2, 4, 5⟩, ⟨3, 5, 6⟩, ⟨4, 6, 7⟩, ⟨5, 7, 8⟩, ⟨6, 8, 9⟩, ⟨7, 9, 10⟩, ⟨8, 10, 11⟩, ⟨9, 11, 0⟩, ⟨10, 0, 1⟩]

/-- The default words of short-mix step `j` (R111, D8): `x = j+2`, `y = j+3`, `z = j`, all mod 4. -/
def shortMixWords : Vector ShortMixWords 12 :=
  #v[⟨2, 3, 0⟩, ⟨3, 0, 1⟩, ⟨0, 1, 2⟩, ⟨1, 2, 3⟩, ⟨2, 3, 0⟩, ⟨3, 0, 1⟩, ⟨0, 1, 2⟩, ⟨1, 2, 3⟩, ⟨2, 3, 0⟩, ⟨3, 0, 1⟩, ⟨0, 1, 2⟩, ⟨1, 2, 3⟩]

/-- The default words of short-end step `j` (R112, D9): `x = j+3`, `y = j+2`, both mod 4. -/
def shortEndWords : Vector ShortEndWords 11 :=
  #v[⟨3, 2⟩, ⟨0, 3⟩, ⟨1, 0⟩, ⟨2, 1⟩, ⟨3, 2⟩, ⟨0, 3⟩, ⟨1, 0⟩, ⟨2, 1⟩, ⟨3, 2⟩, ⟨0, 3⟩, ⟨1, 0⟩]

/-- The default words of stripe step `i` (R131, D11): `S[i+2] ^= S[i+10]`, predecessor `i+11`, successor `i+1`, all mod 12. -/
def mixWords : Vector MixWords 12 :=
  #v[⟨2, 10, 11, 1⟩, ⟨3, 11, 0, 2⟩, ⟨4, 0, 1, 3⟩, ⟨5, 1, 2, 4⟩, ⟨6, 2, 3, 5⟩, ⟨7, 3, 4, 6⟩, 
    ⟨8, 4, 5, 7⟩, ⟨9, 5, 6, 8⟩, ⟨10, 6, 7, 9⟩, ⟨11, 7, 8, 10⟩, ⟨0, 8, 9, 11⟩, ⟨1, 9, 10, 0⟩]

/-- The configuration at the values R9 shows: the default of every argument `P`, and what State.reset carries. -/
def params : Params where
  K := K
  shortMixRot := shortMixRot
  byteOrder := .little
  rotDir := .left
  endWords := endWords
  shortMixWords := shortMixWords
  shortEndWords := shortEndWords
  mixWords := mixWords
  beforeMix := (2, 3)
  afterMix := (0, 1)
  tailWords := (2, 3)
  addressWidth := 64
  countWidth := 64
  contexts := 1

/-- The low `n` bits of a word, zero-extended: the field of `n` bits that an operand word or the count holds. -/
def lowBits (n : Nat) (w : Word) : Word := BitVec.ofNat 64 (w.toNat % 2 ^ n)

end Sys2Proof.Machine
end

