-- ==== Sys2Proof/Syntax.lean ====
section
/-! DEFINITION. The abstract commands (spec/30_encoding.md R70), the opcodes (R74) and the descriptor `D5` that carries a
command (R71). -/

namespace Sys2Proof

/-- The six commands of R70 with the operands each one USES (R72), at their widths. An ignored operand word is no
operand: it stands in the descriptor only. At the default widths of R9 every term of this type is a legal command, because
the widths are the types' (the HASH32 seed is `W1[31:0]`, R173); `Instr.wf` says which are at others. -/
inductive Instr where
  /-- INIT seed0, seed1 (R141). -/
  | init (seed0 seed1 : Word)
  /-- UPDATE ptr, len (R147). -/
  | update (ptr : Address) (len : Count)
  /-- FINALIZE (R149). -/
  | finalize
  /-- HASH128 seed0, seed1, ptr, len (R171). -/
  | hash128 (seed0 seed1 : Word) (ptr : Address) (len : Count)
  /-- HASH64 seed, ptr, len (R172). -/
  | hash64 (seed : Word) (ptr : Address) (len : Count)
  /-- HASH32 seed, ptr, len (R173). -/
  | hash32 (seed : Half) (ptr : Address) (len : Count)
  deriving DecidableEq, Repr

/-- The legal opcodes, one per command (R74). -/
inductive Opcode where
  | init
  | update
  | finalize
  | hash128
  | hash64
  | hash32
  deriving DecidableEq, Repr

/-- The command format `D5` (R71): five 64-bit words, `W0` the opcode and the reserved bits, `W1` `SEED0`, `W2` `SEED1`,
`W3` `PTR`, `W4` `LEN`. -/
structure Descriptor where
  w0 : Word
  w1 : Word
  w2 : Word
  w3 : Word
  w4 : Word
  deriving DecidableEq, Repr

end Sys2Proof
end

