-- ==== Sys2Proof/Decode.lean ====
section
/-! DEFINITION. The decoder, total on every descriptor (spec/30_encoding.md R75: "it yields one of the six commands or
`IllegalCommand`"), the descriptor carried as 40 bytes (R71), and after them the encoder (R71, R74, R79). -/

namespace Sys2Proof

/-- Why the decoder selects no command. The first two are the two grounds of `IllegalCommand` (R75, R181). -/
inductive DecodeError where
  /-- `RSV0 = W0[63:8]` is not zero. -/
  | reservedBits
  /-- `OPC = W0[7:0]` is 0 or above 6. -/
  | illegalOpcode
  /-- A descriptor carried as bytes is 40 bytes (R71) and fewer are there. The block never sees this: it takes whole
  descriptors by value (R59). Log entry 13. -/
  | shortDescriptor
  deriving DecidableEq, Repr

/-- `OPC`, the field `W0[7:0]` (R71). -/
def Descriptor.opc (d : Descriptor) : Byte := d.w0.extractLsb' 0 8

/-- `RSV0`, the field `W0[63:8]` (R71). -/
def Descriptor.rsv0 (d : Descriptor) : BitVec 56 := d.w0.extractLsb' 8 56

/-- The opcode map of R74: the value of `OPC` for each command. -/
def Opcode.code : Opcode → Byte
  | .init => 0x01
  | .update => 0x02
  | .finalize => 0x03
  | .hash128 => 0x04
  | .hash64 => 0x05
  | .hash32 => 0x06

/-- Every row of the opcode map. -/
def Opcode.all : List Opcode := [.init, .update, .finalize, .hash128, .hash64, .hash32]

/-- The command an opcode byte selects, if it selects one (R74, R75). -/
def Opcode.ofByte (b : Byte) : Option Opcode := Opcode.all.find? (fun o => o.code == b)

/-- The field `PTR` (R71): the `AW` bits of an address in `W3`, by default the whole word. Log entry 15. -/
def Descriptor.ptr (d : Descriptor) (P : Params := Machine.params) : Address := Machine.lowBits P.addressWidth d.w3

/-- The field `LEN` (R71): the `CW` bits of a length in `W4`, by default the whole word. Log entry 15. -/
def Descriptor.len (d : Descriptor) (P : Params := Machine.params) : Count := Machine.lowBits P.countWidth d.w4

/-- The operands each command takes from the descriptor's words (R72); the other words are not looked at. -/
def Descriptor.operands (d : Descriptor) (o : Opcode) (P : Params := Machine.params) : Instr :=
  match o with
  | .init => .init d.w1 d.w2
  | .update => .update (d.ptr P) (d.len P)
  | .finalize => .finalize
  | .hash128 => .hash128 d.w1 d.w2 (d.ptr P) (d.len P)
  | .hash64 => .hash64 d.w1 (d.ptr P) (d.len P)
  | .hash32 => .hash32 (d.w1.extractLsb' 0 32) (d.ptr P) (d.len P)

/-- The decoder (R75, R77 step 1): the reserved bits must be zero and the opcode one of the six. -/
def decode (d : Descriptor) (P : Params := Machine.params) : Except DecodeError Instr :=
  if d.rsv0 ≠ 0 then .error .reservedBits
  else
    match Opcode.ofByte d.opc with
    | none => .error .illegalOpcode
    | some o => .ok (d.operands o P)

/-- One 64-bit word from the front of a byte list, and the bytes after it: in the parameter `BYTE_ORDER` (D5), by default
little-endian (R71, R52). -/
def takeWord (bs : List Byte) (P : Params := Machine.params) : Option (Word × List Byte) :=
  match bs with
  | b0 :: b1 :: b2 :: b3 :: b4 :: b5 :: b6 :: b7 :: rest =>
    match P.byteOrder with
    | .little => some (b7 ++ b6 ++ b5 ++ b4 ++ b3 ++ b2 ++ b1 ++ b0, rest)
    | .big => some (b0 ++ b1 ++ b2 ++ b3 ++ b4 ++ b5 ++ b6 ++ b7, rest)
  | _ => none

/-- The eight bytes of a word in the parameter `BYTE_ORDER`, by default least significant first (R71, R52). -/
def wordBytes (w : Word) (P : Params := Machine.params) : List Byte :=
  let bs := [w.extractLsb' 0 8, w.extractLsb' 8 8, w.extractLsb' 16 8, w.extractLsb' 24 8,
    w.extractLsb' 32 8, w.extractLsb' 40 8, w.extractLsb' 48 8, w.extractLsb' 56 8]
  match P.byteOrder with
  | .little => bs
  | .big => bs.reverse

/-- A descriptor carried as bytes: 40 bytes, `W0` first, each word little-endian (R71). -/
def Descriptor.toBytes (d : Descriptor) (P : Params := Machine.params) : List Byte :=
  wordBytes d.w0 P ++ wordBytes d.w1 P ++ wordBytes d.w2 P ++ wordBytes d.w3 P ++ wordBytes d.w4 P

/-- The descriptor at the front of a byte list, and the bytes after it; none when fewer than 40 bytes are there (R71, R76:
every descriptor is 320 bits). -/
def Descriptor.takeBytes (bs : List Byte) (P : Params := Machine.params) : Option (Descriptor × List Byte) :=
  (takeWord bs P).bind fun (w0, bs0) => (takeWord bs0 P).bind fun (w1, bs1) => (takeWord bs1 P).bind fun (w2, bs2) =>
    (takeWord bs2 P).bind fun (w3, bs3) => (takeWord bs3 P).map fun (w4, bs4) => (⟨w0, w1, w2, w3, w4⟩, bs4)

/-- The decoder on bytes: total on every byte list, rejecting by name, and answering with the bytes after the
descriptor. -/
def decodeBytes (bs : List Byte) (P : Params := Machine.params) : Except DecodeError (Instr × List Byte) :=
  match Descriptor.takeBytes bs P with
  | none => .error .shortDescriptor
  | some (d, rest) =>
    match decode d P with
    | .ok i => .ok (i, rest)
    | .error e => .error e

/-- The descriptor whose 320 bits are the low `nbits` bits of `w`, numbered from the least significant bit of `W0`, the
other bits zero. -/
def Descriptor.ofTableBits (nbits w : Nat) : Descriptor :=
  let v := w % 2 ^ nbits
  { w0 := BitVec.ofNat 64 v
    w1 := BitVec.ofNat 64 (v >>> 64)
    w2 := BitVec.ofNat 64 (v >>> 128)
    w3 := BitVec.ofNat 64 (v >>> 192)
    w4 := BitVec.ofNat 64 (v >>> 256) }

/-- What the decoder reads from the 40 bytes of the instruction whose bits are `w`. -/
def decodeTableWord (nbits w : Nat) : Option Instr :=
  match decodeBytes (Descriptor.ofTableBits nbits w).toBytes with
  | .ok (i, _) => some i
  | .error _ => none

/-- The opcode of a command (R74). -/
def Instr.opcode : Instr → Opcode
  | .init .. => .init
  | .update .. => .update
  | .finalize => .finalize
  | .hash128 .. => .hash128
  | .hash64 .. => .hash64
  | .hash32 .. => .hash32

/-- `W0` of a command: the opcode in bits 7:0 and zero reserved bits (R71, R74). -/
def Opcode.word (o : Opcode) : Word := o.code.setWidth 64

/-- The encoder: the descriptor R79's assembler writes, the used operands in their words and every other word zero. -/
def encode : Instr → Descriptor
  | .init seed0 seed1 => ⟨Opcode.word .init, seed0, seed1, 0, 0⟩
  | .update ptr len => ⟨Opcode.word .update, 0, 0, ptr, len⟩
  | .finalize => ⟨Opcode.word .finalize, 0, 0, 0, 0⟩
  | .hash128 seed0 seed1 ptr len => ⟨Opcode.word .hash128, seed0, seed1, ptr, len⟩
  | .hash64 seed ptr len => ⟨Opcode.word .hash64, seed, 0, ptr, len⟩
  | .hash32 seed ptr len => ⟨Opcode.word .hash32, seed.setWidth 64, 0, ptr, len⟩

/-- The encoder on bytes: the 40 bytes of the descriptor (R71). -/
def encodeBytes (i : Instr) (P : Params := Machine.params) : List Byte := (encode i).toBytes P

end Sys2Proof
end

