-- ==== Sys2Proof/Machine/Primitives.lean ====
section
/-! DEFINITION. The primitive loads, the rotate and the word vectors (spec/40_primitives.md R90 to R95). All are total; a
byte position past the end of a sequence counts as zero, which no command reaches (log entry 14). -/

namespace Sys2Proof.Machine

/-- `B[i]` as a number; the byte read of R91, zero-extended. -/
def byteAt (B : List Byte) (i : Nat) : Nat := (B.getD i 0).toNat

/-- `le64(B, o)` (R90): the 64-bit word read, in the parameter `BYTE_ORDER`; by default the byte at the lowest index is the
least significant. -/
def le64 (B : List Byte) (o : Nat) (P : Params := params) : Word :=
  match P.byteOrder with
  | .little => BitVec.ofNat 64
      (byteAt B o + byteAt B (o + 1) * 2 ^ 8 + byteAt B (o + 2) * 2 ^ 16 + byteAt B (o + 3) * 2 ^ 24
        + byteAt B (o + 4) * 2 ^ 32 + byteAt B (o + 5) * 2 ^ 40 + byteAt B (o + 6) * 2 ^ 48 + byteAt B (o + 7) * 2 ^ 56)
  | .big => BitVec.ofNat 64
      (byteAt B (o + 7) + byteAt B (o + 6) * 2 ^ 8 + byteAt B (o + 5) * 2 ^ 16 + byteAt B (o + 4) * 2 ^ 24
        + byteAt B (o + 3) * 2 ^ 32 + byteAt B (o + 2) * 2 ^ 40 + byteAt B (o + 1) * 2 ^ 48 + byteAt B o * 2 ^ 56)

/-- `le32(B, o)` (R91): the 32-bit word read. No command needs it: R115 lets the tail be fetched with it or without, with
the same result. -/
def le32 (B : List Byte) (o : Nat) (P : Params := params) : Half :=
  match P.byteOrder with
  | .little => BitVec.ofNat 32
      (byteAt B o + byteAt B (o + 1) * 2 ^ 8 + byteAt B (o + 2) * 2 ^ 16 + byteAt B (o + 3) * 2 ^ 24)
  | .big => BitVec.ofNat 32
      (byteAt B (o + 3) + byteAt B (o + 2) * 2 ^ 8 + byteAt B (o + 1) * 2 ^ 16 + byteAt B o * 2 ^ 24)

/-- `zeros(n)` (R12). -/
def zeros (n : Nat) : List Byte := List.replicate n 0

/-- `B[i:j]` (R12): bytes `i` to `j - 1`. -/
def slice (B : List Byte) (i j : Nat) : List Byte := (B.drop i).take (j - i)

/-- `lepad64(T)` (R93): the zero-padded word of at most eight bytes. DESIGN CHOICE (log entry 17): at `BYTE_ORDER` = big, where
R93's two formulas differ, it is the first, `le64` of the padded bytes; at the default they are one. -/
def lepad64 (T : List Byte) (P : Params := params) : Word := le64 (T ++ zeros (8 - T.length)) 0 P

/-- `words12(X)` (R94): the twelve words of a 96-byte block. -/
def words12 (X : List Byte) (P : Params := params) : Vector Word 12 := Vector.ofFn fun i => le64 X (8 * i.val) P

/-- `rotl64(x, k)` (R92) for `1 ≤ k ≤ 63`, in the parameter `ROT_DIR`: by default to the left, bit `i` moves to bit
`(i + k) mod 64`. -/
def rotl64 (x : Word) (k : Nat) (P : Params := params) : Word :=
  match P.rotDir with
  | .left => (x <<< k) ||| (x >>> (64 - k))
  | .right => (x >>> k) ||| (x <<< (64 - k))

/-- `S[i] <- v` on a vector of words (R13). -/
def put {n : Nat} (S : Vector Word n) (i : Fin n) (v : Word) : Vector Word n := S.set i.val v i.isLt

/-- The indices `0 .. 11` in order, for the loops of R101, R111 and R131. -/
def indices12 : List (Fin 12) := [0, 1, 2, 3, 4, 5, 6, 7, 8, 9, 10, 11]

/-- The indices `0 .. 10` in order, for the loop of R112. -/
def indices11 : List (Fin 11) := [0, 1, 2, 3, 4, 5, 6, 7, 8, 9, 10]

end Sys2Proof.Machine
end

