-- ==== Sys2Proof/Machine/FinalMixer.lean ====
section
/-! DEFINITION. The final mixer (spec/41_final_mixer.md R101 to R103): pure functions of a twelve-word vector. -/

namespace Sys2Proof.Machine

/-- Step `j` of a diffusion round (R101), on the words `p`, `q`, `t` that the configuration gives it. -/
def endPartialStep (H : Vector Word 12) (j : Fin 12) (P : Params := params) : Vector Word 12 :=
  let ⟨p, q, t⟩ := P.endWords.get j
  let H := put H p (H.get p + H.get q)
  let H := put H t (H.get t ^^^ H.get p)
  put H q (rotl64 (H.get q) (endRot.get j) P)

/-- `EndPartial(H)` (R101): one diffusion round, the twelve steps in order. -/
@[irreducible] def endPartial (H : Vector Word 12) (P : Params := params) : Vector Word 12 :=
  indices12.foldl (fun H j => endPartialStep H j P) H

/-- `EndMix(H)` (R102): three rounds (`END_ROUNDS`). -/
def endMix (H : Vector Word 12) (P : Params := params) : Vector Word 12 := Nat.repeat (fun H => endPartial H P) endRounds H

/-- `End(H, X)` (R103): add the final block word by word, then diffuse. -/
def endBlock (H : Vector Word 12) (X : List Byte) (P : Params := params) : Vector Word 12 :=
  endMix (Vector.zipWith (· + ·) H (words12 X P)) P

end Sys2Proof.Machine
end

