-- ==== Sys2Proof/Machine/ShortMixer.lean ====
section
/-! DEFINITION. The short mixer (spec/42_short_mixer.md R111 to R117): pure functions of the four working words
`h[0] = a`, `h[1] = b`, `h[2] = c`, `h[3] = d`, the message and the seeds. -/

namespace Sys2Proof.Machine

/-- Step `j` of the 12-step mix (R111), on the words `x`, `y`, `z` that the configuration gives it. -/
def shortMixStep (h : Vector Word 4) (j : Fin 12) (P : Params := params) : Vector Word 4 :=
  let ⟨x, y, z⟩ := P.shortMixWords.get j
  let h := put h x (rotl64 (h.get x) (P.shortMixRot.get j) P)
  let h := put h x (h.get x + h.get y)
  put h z (h.get z ^^^ h.get x)

/-- `ShortMix(a, b, c, d)` (R111). -/
@[irreducible] def shortMix (h : Vector Word 4) (P : Params := params) : Vector Word 4 :=
  indices12.foldl (fun h j => shortMixStep h j P) h

/-- Step `j` of the short path's avalanche round (R112), on the words `x`, `y` that the configuration gives it. -/
def shortEndStep (h : Vector Word 4) (j : Fin 11) (P : Params := params) : Vector Word 4 :=
  let ⟨x, y⟩ := P.shortEndWords.get j
  let h := put h x (h.get x ^^^ h.get y)
  let h := put h y (rotl64 (h.get y) (shortEndRot.get j) P)
  put h x (h.get x + h.get y)

/-- `ShortEnd(a, b, c, d)` (R112): eleven steps (spec/90_conflicts.md C1). -/
@[irreducible] def shortEnd (h : Vector Word 4) (P : Params := params) : Vector Word 4 :=
  indices11.foldl (fun h j => shortEndStep h j P) h

/-- Add two words into two working words: `h[i] <- h[i] + x; h[j] <- h[j] + y` for `w = (i, j)`. -/
def addAt (h : Vector Word 4) (w : Fin 4 × Fin 4) (x y : Word) : Vector Word 4 :=
  let h := put h w.1 (h.get w.1 + x)
  put h w.2 (h.get w.2 + y)

/-- A half-stripe at offset `o` (R113, R114): its two words into `c, d`, then the mix. -/
def halfStripe (B : List Byte) (h : Vector Word 4) (o : Nat) (P : Params := params) : Vector Word 4 :=
  shortMix (addAt h P.beforeMix (le64 B o P) (le64 B (o + 8) P)) P

/-- Full stripe `k` (R113): the first half-stripe, then the second half's two words into `a, b`. -/
def fullStripe (B : List Byte) (h : Vector Word 4) (k : Nat) (P : Params := params) : Vector Word 4 :=
  let o := shortStripe * k
  addAt (halfStripe B h o P) P.afterMix (le64 B (o + 16) P) (le64 B (o + 24) P)

/-- The tail of `r` bytes at offset `o` into `c, d` (R115), or the constant into both when it is empty (R116). DESIGN CHOICE (log
entry 17): at `BYTE_ORDER` = big the tail bytes lie in the lanes that `lepad64` gives them, not in those of R115's table; at
the default the two are one. -/
def foldTail (B : List Byte) (h : Vector Word 4) (o r : Nat) (P : Params := params) : Vector Word 4 :=
  if r = 0 then addAt h (2, 3) P.K P.K
  else addAt h P.tailWords (lepad64 (slice B o (o + min r 8)) P) (lepad64 (slice B (o + 8) (o + r)) P)

/-- The offset and the number of bytes of the tail of an `n`-byte message (R114). -/
def tailOf (n : Nat) : Nat × Nat :=
  let o := shortStripe * (n / shortStripe)
  let r := n % shortStripe
  if 16 ≤ r then (o + 16, r - 16) else (o, r)

/-- The four working words after every full stripe and the extra half-stripe (R113, R114). -/
def absorbShort (B : List Byte) (s0 s1 : Word) (P : Params := params) : Vector Word 4 :=
  let n := B.length
  let h := (List.range (n / shortStripe)).foldl (fun h k => fullStripe B h k P) #v[s0, s1, P.K, P.K]
  if 16 ≤ n % shortStripe then halfStripe B h (shortStripe * (n / shortStripe)) P else h

/-- `Short(B, s0, s1)` (R117), for `|B| < 192` (R119): the stripes, the total length into the high byte of `d` (R116), the
tail, the avalanche round; the digest is `(a, b)`. -/
def short (B : List Byte) (s0 s1 : Word) (P : Params := params) : Word × Word :=
  let n := B.length
  let h := absorbShort B s0 s1 P
  let h := put h 3 (h.get 3 + (BitVec.ofNat 64 n <<< 56))
  let h := foldTail B h (tailOf n).1 (tailOf n).2 P
  let h := shortEnd h P
  (h.get 0, h.get 1)

end Sys2Proof.Machine
end

