-- ==== Sys2Proof/Machine/BulkMixer.lean ====
section
/-! DEFINITION. The bulk block mixer (spec/43_bulk_mixer.md R130 to R134) and the dispatch by length of the one-shot hash
(spec/45_public_api.md R170). -/

namespace Sys2Proof.Machine

/-- `SeedAcc(s0, s1)` (R130): `(s0, s1, K)` four times. -/
def seedAcc (s0 s1 : Word) (P : Params := params) : Vector Word 12 :=
  Vector.ofFn fun i => if i.val % 3 = 0 then s0 else if i.val % 3 = 1 then s1 else P.K

/-- Step `i` of the stripe permutation (R131), on `S[i]` and the words that the configuration gives it. -/
def mixStripeStep (w S : Vector Word 12) (i : Fin 12) (P : Params := params) : Vector Word 12 :=
  let ⟨xorTo, xorFrom, pred, succ⟩ := P.mixWords.get i
  let S := put S i (S.get i + w.get i)
  let S := put S xorTo (S.get xorTo ^^^ S.get xorFrom)
  let S := put S pred (S.get pred ^^^ S.get i)
  let S := put S i (rotl64 (S.get i) (mixRot.get i) P)
  put S pred (S.get pred + S.get succ)

/-- `MixStripe(S, X)` (R131): absorb one 96-byte stripe. -/
@[irreducible] def mixStripe (S : Vector Word 12) (X : List Byte) (P : Params := params) : Vector Word 12 :=
  let w := words12 X P
  indices12.foldl (fun S i => mixStripeStep w S i P) S

/-- Absorb the first `n` stripes of a byte sequence, oldest first (R134). -/
def absorbStripes (n : Nat) (S : Vector Word 12) (Y : List Byte) (P : Params := params) : Vector Word 12 :=
  match n with
  | 0 => S
  | n + 1 => absorbStripes n (mixStripe S (Y.take stripe) P) (Y.drop stripe) P

/-- `Absorb(S, Y)` (R134), for `|Y|` a multiple of 96. -/
def absorb (S : Vector Word 12) (Y : List Byte) (P : Params := params) : Vector Word 12 :=
  absorbStripes (Y.length / stripe) S Y P

/-- `TagBlock(T)` (R132), for `|T| ≤ 95`: the leftover, zeros, and the leftover length in byte 95. -/
def tagBlock (T : List Byte) : List Byte := T ++ zeros (95 - T.length) ++ [BitVec.ofNat 8 T.length]

/-- `Bulk(B, s0, s1)` (R133). -/
def bulk (B : List Byte) (s0 s1 : Word) (P : Params := params) : Word × Word :=
  let n := B.length / stripe
  let H := absorb (seedAcc s0 s1 P) (B.take (stripe * n)) P
  let H := endBlock H (tagBlock (B.drop (stripe * n))) P
  (H.get 0, H.get 1)

/-- `Hash128(B, s0, s1)` (R170): the short mixer below 192 bytes, else the bulk mixer. The threshold is strict. -/
def hash128 (B : List Byte) (s0 s1 : Word) (P : Params := params) : Word × Word :=
  if B.length < thresh then short B s0 s1 P else bulk B s0 s1 P

end Sys2Proof.Machine
end

