-- ==== Sys2Proof/Machine/Context.lean ====
section
/-! DEFINITION. One streaming accumulator context (spec/10_state.md R20), and the contexts of a block in which every item but
`INITED` is unspecified (R35; spec/60_exceptions.md R185). -/

namespace Sys2Proof.Machine

/-- The six items of R20. A block has `N_CTX` of them (R9), by default one. -/
structure Context where
  /-- `ACC[0..11]` (R21). -/
  acc : Vector Word 12
  /-- `CARRY[0..191]` (R25); the first `CLEN` bytes are meaningful. -/
  carry : Vector Byte 192
  /-- `CLEN`, an integer 0 to 191 (R26). -/
  clen : Fin 192
  /-- `PCNT`, `CW` bits (R27), by default 64. -/
  pcnt : Count
  /-- `OVF`, sticky (R28). -/
  ovf : Bool
  /-- `INITED` (R29). -/
  inited : Bool
  deriving DecidableEq, Repr

/-- A context with `INITED = 0` whose other items are unspecified: the free values of draw `k` (R35, R185). Log entries 3
and 4. -/
def Context.unspecified (P : Params) (k : Nat) : Context where
  acc := Config.freeAcc k
  carry := Config.freeCarry k
  clen := Config.freeClen k
  pcnt := lowBits P.countWidth (Config.freePcnt k)
  ovf := Config.freeOvf k
  inited := false

/-- `n` such contexts, from draw `k` on. -/
def unspecifiedContexts (P : Params) : Nat → Nat → List Context
  | 0, _ => []
  | n + 1, k => Context.unspecified P k :: unspecifiedContexts P n (k + 1)

end Sys2Proof.Machine
end

