-- ==== Sys2Proof/Machine/State.lean ====
section
/-! DEFINITION. The block's state between commands (spec/10_state.md R20 to R36), the message memory it reads
(spec/20_memory.md R50 to R56), and the host's side of the command port (spec/00_scope.md R7, R8), as plain data. -/

namespace Sys2Proof.Machine

/-- The response a command returns (spec/30_encoding.md R73): `R0` the fault code, `R1` `DIGEST0`, `R2` `DIGEST1`. -/
structure Response where
  r0 : Word
  r1 : Word
  r2 : Word
  deriving DecidableEq, Repr

/-- The four synchronous faults of a COMMAND (spec/60_exceptions.md R181). Each is a response code and the machine goes on
with the next command (R187, R188), so none of them is a `Fault` of the model. -/
inductive CommandFault where
  /-- R182: the descriptor selects no command. -/
  | illegalCommand
  /-- R183: UPDATE or FINALIZE with `INITED = 0`. -/
  | notInitialised
  /-- R184: the message would pass the top of the address space. -/
  | addressRange
  /-- R185: the platform refuses the read of a message byte. -/
  | memFault
  deriving DecidableEq, Repr

/-- A run of message-memory addresses `base .. base + size - 1` whose reads the platform refuses (spec/20_memory.md R56). -/
structure Region where
  base : Nat
  size : Nat
  deriving DecidableEq, Repr

/-- The message memory (R50): the bytes that differ from what an unlisted address reads as, by rising address. Its form is
`Memory.wf`, its read and its write are `Memory.read` and `Memory.write` (Machine/Ops.lean). -/
abbrev Memory := List Host.Cell

/-- What the outside world does to the block and to the message memory, between commands (R7, R8, R57, R200). Log
entries 1, 7 and 12. -/
inductive HostEvent where
  /-- The host presents one command, its descriptor by value (R59), for the context of this number. With `N_CTX` = 1 that is
  always 0; the descriptor has no such operand, and D22 lets a model add it. Log entry 16. -/
  | command (ctx : Nat) (d : Descriptor)
  /-- The host writes one byte of the message memory it owns (R50, R57). -/
  | write (addr : Address) (value : Byte)
  /-- Reset, an event outside the command stream (spec/70_reset_and_hazards.md R200). -/
  | reset
  deriving DecidableEq, Repr

/-- The machine. The context that it extends is the one the command acts on: `acc`, `carry`, `clen`, `pcnt`, `ovf`, `inited`,
with `N_CTX` = 1 (R9) the whole state the spec gives the block (R20). `mem` and `unreadable` are the message memory and the
platform's `READABLE` (R50, R56); `config` is the block's configuration (R9), which nothing changes; `inbox`, `response` and
`draws` are the model's own. -/
structure State extends Context where
  /-- The parameters of R9 that the spec decided or supplied, which the machine runs at. Log entry 15. -/
  config : Params
  /-- The other contexts of the block, numbers 1 to `N_CTX` - 1: none by default (R9, D22). Log entry 16. -/
  others : List Context
  /-- The message memory (R50), owned by the host. -/
  mem : Memory
  /-- The platform's `READABLE` (R56): the runs of addresses at which it is false. Log entry 5. -/
  unreadable : List Region
  /-- What the host is going to do, in order. Log entry 1. -/
  inbox : List HostEvent
  /-- The response of the last command since reset, none before the first (R73, R200). Log entry 2. -/
  response : Option Response
  /-- How many free values have been drawn. Log entry 4. -/
  draws : Nat
  deriving DecidableEq, Repr

/-- The reasons the MACHINE stops. There are none: the spec's four faults are responses after which the next command runs
normally (R187, R188). Log entry 8. -/
inductive Fault where
  deriving DecidableEq, Repr

/-- The commands, or the forms of one, to which the model gives no meaning. -/
inductive Refusal where
  /-- Raised by `exec` alone for an instruction whose meaning is not written yet. Safe: no state follows. No arm raises it
  now. -/
  | notModelled (mnemonic : String)
  /-- Raised by FINALIZE on a Large context with `CLEN ≥ 96`, which R149 gives no meaning (spec/93 ID18: "refuse: outside
  the invariant"). Safe: no state follows, and no commands reach such a state. Log entry 9. -/
  | finalizeCarryPastStripe
  deriving DecidableEq, Repr

/-- A block of the configuration `P` right after reset (R35, R200): in every context `INITED = 0` and every other item
unspecified, so it holds the free values of a draw of its own (log entry 3); no response has been given and no command
presented. The message memory lists nothing (log entry 6) and every address is readable (log entry 5). -/
def State.resetAt (P : Params) : State where
  toContext := Context.unspecified P 0
  config := P
  others := unspecifiedContexts P (P.contexts - 1) 1
  mem := []
  unreadable := []
  inbox := []
  response := none
  draws := 1 + (P.contexts - 1)

/-- The machine right after reset, at the configuration whose values R9 shows. -/
def State.reset : State := State.resetAt params

end Sys2Proof.Machine
end

