-- ==== Sys2Proof/Machine/Ops.lean ====
section
/-! DEFINITION. The named operations over the message memory, the carry buffer, the response and the free values, and
taking a fault (spec/20_memory.md; spec/10_state.md R25; spec/30_encoding.md R73; spec/60_exceptions.md R181 to R188;
spec/70_reset_and_hazards.md R200). -/

namespace Sys2Proof.Machine

/-! ### The message memory -/

/-- What an address that is not listed reads as. The spec gives no contents; DESIGN CHOICE 0, log entry 6. -/
def Memory.background : Byte := 0

/-- `MemRead(a, 1)` (R14, R50). A read has no side effect (R54). -/
def Memory.read : Memory → Nat → Byte
  | [], _ => Memory.background
  | (k, v) :: m, a => if k = a then v else Memory.read m a

/-- One byte written by the host. Keeps the canonical form (`Memory.wf_write`, Laws/Memory.lean). -/
def Memory.write : Memory → Nat → Byte → Memory
  | [], a, b => if b = Memory.background then [] else [(a, b)]
  | (k, v) :: m, a, b =>
    if a < k then (if b = Memory.background then (k, v) :: m else (a, b) :: (k, v) :: m)
    else if a = k then (if b = Memory.background then m else (a, b) :: m)
    else (k, v) :: Memory.write m a b

/-- The canonical form from address `lo` on: strictly rising addresses of `AW` bits, no entry equal to the background. -/
def Memory.wfFrom (lo : Nat) (m : Memory) (P : Params := params) : Bool :=
  match m with
  | [] => true
  | (k, v) :: m =>
    decide (lo ≤ k) && decide (k < 2 ^ P.addressWidth.val) && v != Memory.background && Memory.wfFrom (k + 1) m P

/-- The canonical form of a memory. -/
def Memory.wf (m : Memory) (P : Params := params) : Bool := Memory.wfFrom 0 m P

/-- `MemBytes(a, n)` (R14, R50): the bytes at `a .. a + n - 1`, whatever `a mod 8` is (R53). -/
def Memory.bytes (m : Memory) : Nat → Nat → List Byte
  | _, 0 => []
  | a, n + 1 => m.read a :: Memory.bytes m (a + 1) n

/-- `MemRead(a, 8)` (R14, R52). -/
def Memory.read64 (m : Memory) (a : Nat) (P : Params := params) : Word := le64 (m.bytes a 8) 0 P

/-- `MemRead(a, 4)` (R14, R52). -/
def Memory.read32 (m : Memory) (a : Nat) (P : Params := params) : Half := le32 (m.bytes a 4) 0 P

/-- Whether a run of refused addresses holds `a`. -/
def Region.covers (r : Region) (a : Nat) : Bool := decide (r.base ≤ a) && decide (a < r.base + r.size)

/-- `READABLE(a)` (R56). -/
def State.readable (s : State) (a : Nat) : Bool := !s.unreadable.any (·.covers a)

/-- Every address of `a .. a + n - 1` is readable (R185). -/
def State.rangeReadable (s : State) : Nat → Nat → Bool
  | _, 0 => true
  | a, n + 1 => s.readable a && State.rangeReadable s (a + 1) n

/-! ### The carry buffer -/

/-- `CARRY[0 : CLEN]` (R25): the meaningful bytes, oldest first. -/
def Context.carried (c : Context) : List Byte := c.carry.toList.take c.clen.val

/-- `C[off : off + |bs|] <- bs` on a carry buffer: the bytes outside that range keep their values. -/
@[irreducible] def storeCarry (C : Vector Byte 192) (off : Nat) (bs : List Byte) : Vector Byte 192 :=
  Vector.ofFn fun i => if off ≤ i.val then bs.getD (i.val - off) (C.get i) else C.get i

/-! ### Responses and faults -/

/-- The response of a command that completes without a digest (R73). -/
def Response.done : Response := ⟨0, 0, 0⟩

/-- The response of a command that completes with digest words (R73). -/
def Response.digest (d0 d1 : Word) : Response := ⟨0, d0, d1⟩

/-- The fault code in `R0[7:0]` (R181). -/
def CommandFault.code : CommandFault → Word
  | .illegalCommand => 1
  | .notInitialised => 2
  | .addressRange => 3
  | .memFault => 4

/-- The response of a faulting command (R73, R187): the code, and zero digest words. -/
def Response.ofFault (f : CommandFault) : Response := ⟨f.code, 0, 0⟩

/-- End a command with a response. -/
def respond (r : Response) (s : State) : Host.Outcome State Fault Refusal := .next { s with response := some r }

/-- Take a fault (R187): the command ends, its response is the code with zero digest words, control goes nowhere, no
register is saved and the state is otherwise as it was. There is no return from a fault (R188). -/
def raise (f : CommandFault) (s : State) : Host.Outcome State Fault Refusal := respond (Response.ofFault f) s

/-! ### Free values -/

/-- `INITED <- 0`, and every other item of the context becomes unspecified: the free values of one draw (R185, R200). -/
def invalidate (s : State) : State :=
  { s with toContext := Context.unspecified s.config s.draws, draws := s.draws + 1 }

/-! ### The contexts of the block -/

/-- The context of number `k`, if the block has it: 0 is the one that `State` extends. Log entry 16. -/
def State.contextAt (s : State) (k : Nat) : Option Context := (s.toContext :: s.others)[k]?

/-- Exchange context 0 with the context of number `k`, so that a command acts on that one; the same exchange again puts both
back. -/
def swapContext (k : Nat) (s : State) : State :=
  match k with
  | 0 => s
  | j + 1 =>
    match s.others[j]? with
    | none => s
    | some c => { s with toContext := c, others := s.others.set j s.toContext }

/-! ### What the outside world does between commands -/

/-- The host writes one byte of its message memory (R50, R57); an address has `AW` bits (R9), by default the whole word. -/
def hostWrite (addr : Address) (value : Byte) (s : State) : State :=
  { s with mem := s.mem.write (lowBits s.config.addressWidth addr).toNat value }

/-- Reset (R200): in every context `INITED = 0` and the rest unspecified, no response; the message memory is outside the
block and the host's. Log entry 12. -/
def resetBlock (s : State) : State :=
  { invalidate s with
    others := unspecifiedContexts s.config (s.config.contexts - 1) (s.draws + 1)
    response := none
    draws := s.draws + 1 + (s.config.contexts - 1) }

end Sys2Proof.Machine
end

