-- ==== Sys2Proof/Machine/Operands.lean ====
section
/-! DEFINITION. The operand forms of the commands (spec/30_encoding.md R72): the message operand `PTR, LEN` with its range
check and its reads (R50, R55, R77, R184, R185), and the seed operands of HASH64 and HASH32 (spec/45_public_api.md R172,
R173). -/

namespace Sys2Proof.Machine

/-- The message passes the top of the address space (R55, R184): `LEN > 0` and `PTR + LEN > 2^AW` as natural numbers. -/
def outOfRange (ptr : Address) (len : Count) (P : Params := params) : Bool :=
  len != 0 && decide (2 ^ P.addressWidth.val < ptr.toNat + len.toNat)

/-- The message operand (R50, R77 steps 3 and 4): the range check, then the reads; all the bytes or the fault. With
`LEN = 0` nothing is read and `PTR` is ignored (R54). -/
def fetchMessage (ptr : Address) (len : Count) (s : State) : Except CommandFault (List Byte) :=
  if outOfRange ptr len s.config then .error .addressRange
  else if s.rangeReadable ptr.toNat len.toNat then .ok (s.mem.bytes ptr.toNat len.toNat)
  else .error .memFault

/-- The HASH32 seed: `zext_64(W1[31:0])` (R173). -/
def widenSeed (seed : Half) : Word := seed.setWidth 64

/-- The HASH32 result: `zext_64(d0[31:0])` (R173). -/
def lowHalf (d0 : Word) : Word := (d0.setWidth 32).setWidth 64

end Sys2Proof.Machine
end

