-- ==== Sys2Proof/Machine/OneShot.lean ====
section
/-! DEFINITION. The one-shot commands HASH128, HASH64 and HASH32 (spec/45_public_api.md R171 to R174). They neither read nor
write the streaming context (spec/10_state.md R36). -/

namespace Sys2Proof.Machine

/-- What the three one-shot commands share: fetch the message or take its fault, and answer with a response computed from
the message's bytes. -/
def oneShot (ptr : Address) (len : Count) (answer : List Byte → Response) (s : State) :
    Host.Outcome State Fault Refusal :=
  match fetchMessage ptr len s with
  | .error f => raise f s
  | .ok M => respond (answer M) s

/-- HASH128 (R171). -/
def execHash128 (seed0 seed1 : Word) (ptr : Address) (len : Count) (s : State) :
    Host.Outcome State Fault Refusal :=
  oneShot ptr len (fun M => Response.digest (hash128 M seed0 seed1 s.config).1 (hash128 M seed0 seed1 s.config).2) s

/-- HASH64 (R172): the seed in both halves, the first digest word kept. -/
def execHash64 (seed : Word) (ptr : Address) (len : Count) (s : State) :
    Host.Outcome State Fault Refusal :=
  oneShot ptr len (fun M => Response.digest (hash128 M seed seed s.config).1 0) s

/-- HASH32 (R173): the seed zero-extended into both halves, the low 32 bits of the first digest word kept. -/
def execHash32 (seed : Half) (ptr : Address) (len : Count) (s : State) :
    Host.Outcome State Fault Refusal :=
  oneShot ptr len (fun M => Response.digest (lowHalf (hash128 M (widenSeed seed) (widenSeed seed) s.config).1) 0) s

end Sys2Proof.Machine
end

