-- ==== Sys2Proof/Machine/Flags.lean ====
section
/-! DEFINITION. The block's one flag `OVF`, the processed count it belongs to, and the predicates Small and Large that read
them (spec/10_state.md R27, R28, R30; spec/44_streaming.md R145). No mixing arithmetic sets a flag (R95). -/

namespace Sys2Proof.Machine

/-- `Add96(PCNT, OVF)` (R145): the sum as a natural number decides the flag; the count keeps the sum modulo `2^CW`. -/
def add96 (p : Count) (v : Bool) (P : Params := params) : Count × Bool :=
  let t := p.toNat + stripe
  (BitVec.ofNat 64 (t % 2 ^ P.countWidth.val), if 2 ^ P.countWidth.val ≤ t then true else v)

/-- `Large(ctx)` (R30): `OVF = 1` or `PCNT != 0`. -/
def Context.large (c : Context) : Bool := c.ovf || c.pcnt != 0

/-- `Small(ctx)` (R30). -/
def Context.small (c : Context) : Bool := !c.large

end Sys2Proof.Machine
end

