-- ==== Sys2Proof/Machine/Streaming.lean ====
section
/-! DEFINITION. The streaming accumulator's commands INIT, UPDATE and FINALIZE (spec/44_streaming.md R140 to R149). -/

namespace Sys2Proof.Machine

/-- INIT (R141): legal in every state. `CARRY` keeps its bytes; only `CLEN` becomes 0. -/
def execInit (seed0 seed1 : Word) (s : State) : Host.Outcome State Fault Refusal :=
  respond Response.done
    { s with acc := seedAcc seed0 seed1 s.config, pcnt := 0, clen := 0, ovf := false, inited := true }

/-- UPDATE that stays Small (R143), for `CLEN + |M| < 192`: append to the carry; nothing else changes. -/
def appendChunk (M : List Byte) (s : State) : State :=
  { s with carry := storeCarry s.carry s.clen.val M, clen := Fin.ofNat 192 (s.clen.val + M.length) }

/-- One turn of the fold loop (R144): the oldest stripe of `S` into `ACC`, 96 into the count. -/
def foldStripe (X : List Byte) (s : State) : State :=
  { s with
    acc := mixStripe s.acc X s.config
    pcnt := (add96 s.pcnt s.ovf s.config).1
    ovf := (add96 s.pcnt s.ovf s.config).2 }

/-- The fold loop (R144): the first `n` stripes of `S`, oldest first. -/
def foldStripes (n : Nat) (S : List Byte) (s : State) : State :=
  match n with
  | 0 => s
  | n + 1 => foldStripes n (S.drop stripe) (foldStripe (S.take stripe) s)

/-- UPDATE that folds (R144, R146): every whole stripe of the carried bytes followed by the new ones, and the last
`r ≤ 95` bytes carried; the carry bytes from `r` on become unspecified (R25), the free bytes of one draw. -/
def foldChunk (M : List Byte) (s : State) : State :=
  let S := s.carried ++ M
  let n := S.length / stripe
  let t := foldStripes n S s
  { t with
    carry := storeCarry (Config.freeCarry s.draws) 0 (S.drop (stripe * n))
    clen := Fin.ofNat 192 (S.length % stripe)
    draws := s.draws + 1 }

/-- UPDATE with a message of at least one byte (R147): append while Small and the total stays below 192, else fold. -/
def absorbChunk (M : List Byte) (s : State) : State :=
  if s.small && decide (s.clen.val + M.length < thresh) then appendChunk M s else foldChunk M s

/-- UPDATE (R147). A refused read invalidates the context (R185); the other faults leave it (R183, R184). -/
def execUpdate (ptr : Address) (len : Count) (s : State) : Host.Outcome State Fault Refusal :=
  if s.inited = false then raise .notInitialised s
  else if len = 0 then respond Response.done s
  else
    match fetchMessage ptr len s with
    | .error .memFault => raise .memFault (invalidate s)
    | .error f => raise f s
    | .ok M => respond Response.done (absorbChunk M s)

/-- The digest FINALIZE returns on the Large path (R149): the tagged final block into a copy of `ACC`, then the
diffusion. -/
def largeDigest (s : State) : Word × Word :=
  let H := endBlock s.acc (tagBlock s.carried) s.config
  (H.get 0, H.get 1)

/-- FINALIZE (R149). The Small path reads the seeds from `ACC[0]` and `ACC[1]`. A Large context with `CLEN ≥ 96` has no
meaning in the spec and is refused by name (log entry 9). -/
def execFinalize (s : State) : Host.Outcome State Fault Refusal :=
  if s.inited = false then raise .notInitialised s
  else if s.ovf = false ∧ s.pcnt = 0 ∧ s.pcnt.toNat + s.clen.val < thresh then
    let d := short s.carried (s.acc.get 0) (s.acc.get 1) s.config
    respond (Response.digest d.1 d.2) s
  else if s.clen.val < stripe then respond (Response.digest (largeDigest s).1 (largeDigest s).2) s
  else .refused .finalizeCarryPastStripe

end Sys2Proof.Machine
end

