-- ==== Sys2Proof/Machine/Dispatch.lean ====
section
/-! DEFINITION. One arm per command, each one call of its meaning (spec/30_encoding.md R74, R77 step 4). -/

namespace Sys2Proof.Machine

def exec (i : Instr) (s : State) : Host.Outcome State Fault Refusal :=
  match i with
  | .init seed0 seed1 => Sys2Proof.Machine.execInit seed0 seed1 s
  | .update ptr len => Sys2Proof.Machine.execUpdate ptr len s
  | .finalize => Sys2Proof.Machine.execFinalize s
  | .hash128 seed0 seed1 ptr len => Sys2Proof.Machine.execHash128 seed0 seed1 ptr len s
  | .hash64 seed ptr len => Sys2Proof.Machine.execHash64 seed ptr len s
  | .hash32 seed ptr len => Sys2Proof.Machine.execHash32 seed ptr len s

end Sys2Proof.Machine
end

