-- ==== Sys2Proof/Machine/Command.lean ====
section
/-! DEFINITION. Processing one descriptor (spec/30_encoding.md R77): decode it, then run the command or take
`IllegalCommand`; and presenting a descriptor to the block. -/

namespace Sys2Proof.Machine

/-- Process one descriptor (R77): a descriptor that selects no command raises `IllegalCommand` (R182). The later checks of
R77 are each command's own, in R186's order. -/
def processDescriptor (d : Descriptor) (s : State) : Host.Outcome State Fault Refusal :=
  match decode d s.config with
  | .error _ => raise .illegalCommand s
  | .ok i => exec i s

/-- Process a descriptor for the context of number `k`: in the state with that context in place, which goes back after the
command. A number without a context answers `IllegalCommand`, as what selects no command does; with `N_CTX` = 1 the number
is 0. Log entry 16. -/
def processOn (k : Nat) (d : Descriptor) (s : State) : Host.Outcome State Fault Refusal :=
  if k ≤ s.others.length then
    match processDescriptor d (swapContext k s) with
    | .next t => .next (swapContext k t)
    | .fault f => .fault f
    | .refused r => .refused r
  else raise .illegalCommand s

/-- The host presents a descriptor, for context 0, ahead of everything it was going to do. -/
def presentDescriptor (d : Descriptor) (s : State) : State := { s with inbox := .command 0 d :: s.inbox }

end Sys2Proof.Machine
end

