-- ==== Sys2Proof/Machine/Step.lean ====
section
/-! DEFINITION. One step of the machine: one host event, taken whole (spec/00_scope.md R8; spec/70_reset_and_hazards.md
R204, R207: "a model gives each command one step"). -/

namespace Sys2Proof.Machine

/-- One step: the next thing the host does. With nothing in the inbox the block waits for a descriptor (R24, R200) and
nothing changes. -/
def step (s : State) : Host.Outcome State Fault Refusal :=
  match s.inbox with
  | [] => .next s
  | .command ctx d :: rest => processOn ctx d { s with inbox := rest }
  | .write addr value :: rest => .next (hostWrite addr value { s with inbox := rest })
  | .reset :: rest => .next (resetBlock { s with inbox := rest })

/-- `s` with the descriptor whose low `nbits` bits are those of `w` presented to the block, so that the very next step
processes it. Log entry 1. -/
def State.withFetchWord (s : State) (nbits w : Nat) : State := presentDescriptor (Descriptor.ofTableBits nbits w) s

end Sys2Proof.Machine
end

