-- ==== Sys2Proof/Safety.lean ====
section
/-! DEFINITION. What the claims say of a state: when a message operand can be read, the invariant of the block
(spec/10_state.md R31), that a state holds a given stream (R31), and what a list of host events feeds the stream
(spec/44_streaming.md R151). -/

namespace Sys2Proof.Machine

/-! ### Commands and their message operands -/

/-- The message operand `PTR, LEN` of a command that has one (R72). -/
def messageOperand : Instr → Option (Word × Word)
  | .init _ _ => none
  | .update ptr len => some (ptr, len)
  | .finalize => none
  | .hash128 _ _ ptr len => some (ptr, len)
  | .hash64 _ ptr len => some (ptr, len)
  | .hash32 _ ptr len => some (ptr, len)

/-- The two commands that use the context and need it initialised (R77 step 2, R183). -/
def NeedsContext (i : Instr) : Prop := i = .finalize ∨ ∃ ptr len, i = .update ptr len

/-- `LEN > 0` and `PTR + LEN > 2^AW` as natural numbers (R55, whose 2^64 is that of R9's default `AW` = 64). -/
def PassesTop (P : Params) (ptr len : Word) : Prop := len ≠ 0 ∧ 2 ^ P.addressWidth.val < ptr.toNat + len.toNat

/-- `READABLE` is false for some address of the message (R185). -/
def RefusedSomewhere (s : State) (ptr len : Word) : Prop :=
  ∃ a, ptr.toNat ≤ a ∧ a < ptr.toNat + len.toNat ∧ s.readable a = false

/-- The message lies inside the address space and every byte of it is readable (R56, R180). -/
def CanRead (s : State) (ptr len : Word) : Prop := ¬ PassesTop s.config ptr len ∧ ¬ RefusedSomewhere s ptr len

/-- The message `M` of R50: the bytes at `PTR .. PTR + LEN - 1`. -/
def message (s : State) (ptr len : Word) : List Byte := s.mem.bytes ptr.toNat len.toNat

/-- A descriptor's `W0` selects one of the six commands (R74): reserved bits zero, opcode 1 to 6. -/
def SelectsCommand (d : Descriptor) : Prop :=
  d.w0.toNat / 256 = 0 ∧ 1 ≤ d.w0.toNat % 256 ∧ d.w0.toNat % 256 ≤ 6

/-! ### The invariant of the block -/

/-- What holds of a context at every command boundary with `INITED = 1`, whatever the stream (R31; R26, R27). -/
structure ContextOk (P : Params) (c : Context) : Prop where
  /-- A Large context carries less than a stripe (R26, R31 item 3). -/
  carry_lt_stripe : c.large = true → c.clen.val < 96
  /-- While `OVF = 0` the count is a multiple of 96 (R27). -/
  count_multiple : c.ovf = false → c.pcnt.toNat % 96 = 0
  /-- A Small context still holds the seeded accumulator (R31 item 2). -/
  small_seeded : c.small = true → c.acc = seedAcc (c.acc.get 0) (c.acc.get 1) P

/-- What holds of a context always: the count has `CW` bits (R27, R9), and the context is as R31 says once it is
initialised. -/
def ContextInv (P : Params) (c : Context) : Prop :=
  c.pcnt.toNat < 2 ^ P.countWidth.val ∧ (c.inited = true → ContextOk P c)

/-- The invariant: the message memory is in canonical form, the block has the contexts of its configuration, and each is as
it should be. -/
structure Inv (s : State) : Prop where
  memory : s.mem.wf s.config = true
  number : s.others.length = s.config.contexts - 1
  contexts : ∀ c ∈ s.toContext :: s.others, ContextInv s.config c

/-- Everything but the context of number `k`: what a command on that context must leave alone. -/
def SameOutside (k : Nat) (s t : State) : Prop :=
  t.config = s.config ∧ t.others.length = s.others.length ∧ (∀ j, j ≠ k → t.contextAt j = s.contextAt j) ∧
    t.mem = s.mem ∧ t.unreadable = s.unreadable ∧ t.inbox = s.inbox

/-- A context of a block of configuration `P` holds the stream `T` begun with the seeds `s0`, `s1` (R31): `T` is every byte
passed to UPDATE since the INIT, in order. The count is modulo `2^CW`, where R31 has the 2^64 of R9's default `CW` = 64. -/
structure HoldsStream (P : Params) (s0 s1 : Word) (T : List Byte) (c : Context) : Prop where
  initialised : c.inited = true
  /-- R31 item 2. -/
  small_state : c.small = true →
    c.pcnt = 0 ∧ c.ovf = false ∧ c.acc = seedAcc s0 s1 P ∧ c.carried = T ∧ T.length = c.clen.val
  /-- R31 item 3, with `n` the true number of folded bytes. -/
  large_state : c.large = true →
    c.clen.val ≤ 95 ∧ ∃ n, 0 < n ∧ n % 96 = 0 ∧ c.pcnt.toNat = n % 2 ^ P.countWidth.val ∧
      (c.ovf = true ↔ 2 ^ P.countWidth.val ≤ n) ∧
      T.length = n + c.clen.val ∧ c.acc = absorb (seedAcc s0 s1 P) (T.take n) P ∧ c.carried = T.drop n
  /-- R31 item 5. -/
  small_iff : c.small = true ↔ T.length < 192

/-! ### Streams of host events -/

/-- The host presents a command for context `k`. -/
def issue (k : Nat) (i : Instr) : HostEvent := .command k (encode i)

/-- An event after which the stream of context `k` goes on: no INIT of it, no reset, and no UPDATE of it whose message cannot
be read. Any other command, also a faulting one, any command on another context and any host write may stand inside a stream
(R36, R151, R205). -/
def KeepsStream (k : Nat) (s : State) : HostEvent → Prop
  | .command j d =>
    match decode d s.config with
    | .ok (.init _ _) => j ≠ k
    | .ok (.update ptr len) => j = k → CanRead s ptr len
    | .ok _ => True
    | .error _ => True
  | .write _ _ => True
  | .reset => False

/-- The bytes that a list of events feeds the stream of context `k`: the messages of its UPDATEs, each as the memory stands
when it is issued (R57), in order. -/
def streamBytes (P : Params) (k : Nat) : Memory → List HostEvent → List Byte
  | _, [] => []
  | m, .command j d :: es =>
    match decode d P with
    | .ok (.update ptr len) => (if j = k then m.bytes ptr.toNat len.toNat else []) ++ streamBytes P k m es
    | _ => streamBytes P k m es
  | m, .write addr value :: es => streamBytes P k (m.write (lowBits P.addressWidth addr).toNat value) es
  | m, .reset :: es => streamBytes P k m es

end Sys2Proof.Machine
end

