-- ==== Sys2Proof/WellFormed.lean ====
section
/-! DEFINITION. Well-formedness of a descriptor as an assembler writes it (spec/30_encoding.md R79: "An assembler fills
ignored operand words and `RSV0` with zero"): the legality of `W0` (R74, R75) and the zero ignored words (R72). And of a command:
an address has `AW` bits and a length `CW` (R9); at the default, where both are 64, every command is well-formed, since any
operand values are legal (R180). -/

namespace Sys2Proof

/-- Why a descriptor is not one an assembler writes. -/
inductive IllFormed where
  /-- `W0[63:8]`, the field `RSV0`, is not zero (R75: illegal whatever the opcode). -/
  | reservedBits
  /-- `W0[7:0]` is 0 or above 6 (R75: illegal). -/
  | illegalOpcode
  /-- An operand word the command ignores is not zero: legal to the block (R72), but not what R79's assembler writes. -/
  | ignoredOperand
  deriving DecidableEq, Repr

/-- The message operand is an address of `AW` bits and a length of `CW` bits (R9). -/
def operandFits (ptr : Address) (len : Count) (P : Params := Machine.params) : Bool :=
  decide (ptr.toNat < 2 ^ P.addressWidth.val) && decide (len.toNat < 2 ^ P.countWidth.val)

/-- A command that the descriptor format of this configuration can carry. -/
def Instr.wf (i : Instr) (P : Params := Machine.params) : Bool :=
  match i with
  | .init _ _ => true
  | .update ptr len => operandFits ptr len P
  | .finalize => true
  | .hash128 _ _ ptr len => operandFits ptr len P
  | .hash64 _ ptr len => operandFits ptr len P
  | .hash32 _ ptr len => operandFits ptr len P

/-- The bits of `W3` and `W4` above the fields `PTR` and `LEN`: at the default widths none. -/
def Descriptor.aboveOperand (d : Descriptor) (P : Params := Machine.params) : List Word :=
  [d.w3 >>> P.addressWidth.val, d.w4 >>> P.countWidth.val]

/-- The operand words the command of this opcode value ignores, by the table of R72; for HASH32 the ignored part of `W1`
is its bits 63:32. Opcode values that select no command ignore nothing. -/
def Descriptor.ignoredWords (d : Descriptor) (P : Params := Machine.params) : List Word :=
  match d.w0.toNat with
  | 1 => [d.w3, d.w4]
  | 2 => [d.w1, d.w2] ++ d.aboveOperand P
  | 3 => [d.w1, d.w2, d.w3, d.w4]
  | 4 => d.aboveOperand P
  | 5 => d.w2 :: d.aboveOperand P
  | 6 => [d.w1 >>> 32, d.w2] ++ d.aboveOperand P
  | _ => []

/-- The first check a descriptor fails, or none: reserved bits, opcode, ignored words. -/
def Descriptor.check (d : Descriptor) (P : Params := Machine.params) : Option IllFormed :=
  if d.w0 >>> 8 ≠ 0 then some .reservedBits
  else if d.w0 = 0 ∨ 6 < d.w0.toNat then some .illegalOpcode
  else if (d.ignoredWords P).any (· != 0) then some .ignoredOperand
  else none

/-- A descriptor as R79's assembler writes it. -/
def Descriptor.wf (d : Descriptor) (P : Params := Machine.params) : Bool := (d.check P).isNone

end Sys2Proof
end

