-- ==== Sys2Proof/Certificates/Slice0/Obligations.lean ====
section
/-! DEFINITION. The statements for the provers, in the order of spec/: encoding, step, faults, streaming, one-shot commands,
memory, primitives and mixers, invariants. Each docstring names the rule it formalises. -/

open Sys2Proof Sys2Proof.Machine

/-! ### Encoding -/

/-- R71, R74, R79: decoding the 40 bytes of an encoded command gives the command back, and leaves what follows; in every
configuration that can carry the command, so in either value of `BYTE_ORDER` (R9); at the default widths that is every
command. -/
def Obligations.DecodeOfEncodedBytes : Prop :=
  (∀ (i : Instr) (rest : List Byte) (P : Params), i.wf P = true →
    decodeBytes (encodeBytes i P ++ rest) P = .ok (i, rest) ∧ (encodeBytes i P).length = 40) ∧
  ∀ (i : Instr) (P : Params), P.addressWidth = 64 → P.countWidth = 64 → i.wf P = true

/-- R79, R72: in every configuration the encoder writes well-formed descriptors of well-formed commands, and a well-formed
descriptor is the encoding of the well-formed command it decodes to (each command has one assembled form); and the operands in
a configuration (log entry 15) are those that the default decodes from the descriptor with `PTR` cut to its low `AW` bits and
`LEN` to its low `CW` bits (R9, R71). -/
def Obligations.EncodeOfDecodedDescriptor : Prop :=
  ∀ P : Params,
    (∀ i : Instr, i.wf P = true → (encode i).wf P = true ∧ decode (encode i) P = .ok i) ∧
    (∀ (d : Descriptor) (i : Instr), d.wf P = true → decode d P = .ok i → encode i = d ∧ i.wf P = true) ∧
    (∀ d : Descriptor,
      decode d P = decode ⟨d.w0, d.w1, d.w2, BitVec.ofNat 64 (d.w3.toNat % 2 ^ P.addressWidth.val),
        BitVec.ofNat 64 (d.w4.toNat % 2 ^ P.countWidth.val)⟩)

/-- R182: a descriptor that selects no command raises `IllegalCommand`: the response is `(1, 0, 0)` whatever memory holds,
and nothing else changes. The decoder yields a command exactly for the descriptors with zero reserved bits and an opcode 1
to 6 (R75). -/
def Obligations.IllegalDescriptorsRaise : Prop :=
  (∀ (d : Descriptor) (P : Params), (∃ i, decode d P = .ok i) ↔ SelectsCommand d) ∧
    ∀ (d : Descriptor) (s : State), ¬ SelectsCommand d →
      processDescriptor d s = .next { s with response := some ⟨1, 0, 0⟩ }

/-- R74: a descriptor selects a command exactly when `W0` is one of the six values shown, each its command, which takes its
used operand words as they are (HASH32 the low half of `W1`) and depends on no ignored word (R72). -/
def Obligations.CommandsUseTheirOperandWords : Prop :=
  (∀ (d : Descriptor) (i : Instr), decode d = .ok i → d.w0 ∈ [1, 2, 3, 4, 5, 6]) ∧
  ∀ w1 w2 w3 w4 : Word,
    decode ⟨0x0000000000000001, w1, w2, w3, w4⟩ = .ok (.init w1 w2) ∧
    decode ⟨0x0000000000000002, w1, w2, w3, w4⟩ = .ok (.update w3 w4) ∧
    decode ⟨0x0000000000000003, w1, w2, w3, w4⟩ = .ok .finalize ∧
    decode ⟨0x0000000000000004, w1, w2, w3, w4⟩ = .ok (.hash128 w1 w2 w3 w4) ∧
    decode ⟨0x0000000000000005, w1, w2, w3, w4⟩ = .ok (.hash64 w1 w3 w4) ∧
    decode ⟨0x0000000000000006, w1, w2, w3, w4⟩ = .ok (.hash32 (BitVec.ofNat 32 (w1.toNat % 2 ^ 32)) w3 w4)

/-- R81: the worked encodings, the bytes of one of them, and the three illegal ones. -/
def Obligations.WorkedEncodings : Prop :=
  encode (.init 123456789 987654321) = ⟨0x1, 0x075bcd15, 0x3ade68b1, 0, 0⟩ ∧
  encode (.update 0x1000 100) = ⟨0x2, 0, 0, 0x1000, 0x64⟩ ∧
  encode .finalize = ⟨0x3, 0, 0, 0, 0⟩ ∧
  encode (.hash128 0 0 0x1061 3) = ⟨0x4, 0, 0, 0x1061, 0x3⟩ ∧
  encode (.hash64 5 0x1000 10) = ⟨0x5, 0x5, 0, 0x1000, 0xa⟩ ∧
  encode (.hash32 0 0x1000 0) = ⟨0x6, 0, 0, 0x1000, 0⟩ ∧
  decode ⟨0x1, 0x075bcd15, 0x3ade68b1, 0, 0⟩ = .ok (.init 123456789 987654321) ∧
  decode ⟨0x2, 0, 0, 0x1000, 0x64⟩ = .ok (.update 0x1000 100) ∧
  decode ⟨0x3, 0, 0, 0, 0⟩ = .ok .finalize ∧
  decode ⟨0x4, 0, 0, 0x1061, 0x3⟩ = .ok (.hash128 0 0 0x1061 3) ∧
  decode ⟨0x5, 0x5, 0, 0x1000, 0xa⟩ = .ok (.hash64 5 0x1000 10) ∧
  decode ⟨0x6, 0, 0, 0x1000, 0⟩ = .ok (.hash32 0 0x1000 0) ∧
  encodeBytes (.update 0x1000 100) =
    [0x02, 0, 0, 0, 0, 0, 0, 0] ++ zeros 8 ++ zeros 8 ++ [0x00, 0x10, 0, 0, 0, 0, 0, 0] ++
      [0x64, 0, 0, 0, 0, 0, 0, 0] ∧
  decode ⟨0x0000000000000102, 0, 0, 0, 0⟩ = .error .reservedBits ∧
  decode ⟨0x0000000000000007, 0, 0, 0, 0⟩ = .error .illegalOpcode ∧
  decode ⟨0, 0, 0, 0, 0⟩ = .error .illegalOpcode

/-! ### The step -/

/-- R8, R24, R204, over the model's own list of host events (log entries 1 and 16): when the host's next event is a descriptor
for context 0, the step processes it with the event consumed, and nothing else around it, and when it decodes to a command
that is the command's meaning; for another context of the block it is the meaning with that context in place; a number
without a context answers `IllegalCommand`. -/
def Obligations.StepRunsTheDecodedCommand : Prop :=
  ∀ (s : State) (k : Nat) (d : Descriptor) (rest : List HostEvent), s.inbox = .command k d :: rest →
    (k = 0 → step s = processDescriptor d { s with inbox := rest } ∧
      ∀ i : Instr, decode d s.config = .ok i → step s = exec i { s with inbox := rest }) ∧
    (k ≤ s.others.length → ∀ i : Instr, decode d s.config = .ok i →
      (∀ t, exec i (swapContext k { s with inbox := rest }) = .next t → step s = .next (swapContext k t)) ∧
      ∀ f, exec i (swapContext k { s with inbox := rest }) = .refused f → step s = .refused f) ∧
    (s.others.length < k → step s = .next { s with inbox := rest, response := some ⟨1, 0, 0⟩ })

/-- The model's own host events (log entries 1, 7, 12; R24, R50, R57, R200): with no event the block waits; a host write
changes the one byte at its address of `AW` bits; a reset clears `INITED` of every context, leaves no response, and leaves the
message memory as it is. -/
def Obligations.StepTakesHostEvents : Prop :=
  (∀ s : State, s.inbox = [] → step s = .next s) ∧
  (∀ (s : State) (addr : Word) (v : Byte) (rest : List HostEvent), s.inbox = .write addr v :: rest →
    s.mem.wf s.config = true →
    ∃ t, step s = .next t ∧ t = { s with inbox := rest, mem := t.mem } ∧
      ∀ a, t.mem.read a = if a = addr.toNat % 2 ^ s.config.addressWidth.val then v else s.mem.read a) ∧
  (∀ (s : State) (rest : List HostEvent), s.inbox = .reset :: rest →
    ∃ t, step s = .next t ∧ (∀ c ∈ t.toContext :: t.others, c.inited = false) ∧ t.response = none ∧ t.mem = s.mem ∧
      t.unreadable = s.unreadable ∧ t.config = s.config ∧ t.inbox = rest)

/-- R36, R192, D22 (log entry 16): a command on one context leaves every other context, the message memory and the
configuration as they are; and its response and what it leaves in its context depend on no other context. -/
def Obligations.ContextsAreIndependent : Prop :=
  (∀ (s t : State) (k : Nat) (d : Descriptor) (rest : List HostEvent), s.inbox = .command k d :: rest →
    step s = .next t → SameOutside k { s with inbox := rest } t) ∧
  ∀ (s u t : State) (k : Nat) (d : Descriptor) (rest rest' : List HostEvent) (c : Context),
    s.inbox = .command k d :: rest → u.inbox = .command k d :: rest' →
    s.contextAt k = some c → u.contextAt k = some c → u.config = s.config → u.mem = s.mem →
    u.unreadable = s.unreadable → u.draws = s.draws → step s = .next t →
    ∃ v, step u = .next v ∧ v.response = t.response ∧ v.contextAt k = t.contextAt k

/-- R9: the configuration after reset holds the value that R9 shows for each parameter that the spec decided or supplied from
general knowledge (its step patterns by R101, R111, R112, R113, R115, R131), so 2^64 is the end of the address space and the
range of the count; and no step changes the configuration, so a block runs at the one it was reset with (R201, log entry
15), nor the number of its contexts, but that a reset event gives it the number of its configuration. -/
def Obligations.ConfigurationIsTheDefaultAndFixed : Prop :=
  (∀ s t : State, step s = .next t →
    t.config = s.config ∧ (t.others.length = s.others.length ∨ t.others.length = s.config.contexts - 1)) ∧
  State.reset = State.resetAt params ∧ State.reset.config = params ∧ State.reset.others = [] ∧
  params.K = 0xdeadbeefdeadbeef ∧
  params.shortMixRot.toList = [50, 52, 30, 41, 54, 48, 38, 37, 62, 34, 5, 36] ∧
  params.byteOrder = .little ∧ params.rotDir = .left ∧
  params.addressWidth.val = 64 ∧ params.countWidth.val = 64 ∧ params.contexts = 1 ∧
  (∀ j : Fin 12, params.endWords.get j = ⟨j + 11, j + 1, j + 2⟩) ∧
  (∀ j : Fin 12, params.shortMixWords.get j =
    ⟨Fin.ofNat 4 (j.val + 2), Fin.ofNat 4 (j.val + 3), Fin.ofNat 4 j.val⟩) ∧
  (∀ j : Fin 11, params.shortEndWords.get j = ⟨Fin.ofNat 4 (j.val + 3), Fin.ofNat 4 (j.val + 2)⟩) ∧
  (∀ i : Fin 12, params.mixWords.get i = ⟨i + 2, i + 10, i + 11, i + 1⟩) ∧
  params.beforeMix = (2, 3) ∧ params.afterMix = (0, 1) ∧ params.tailWords = (2, 3)

/-- R188: the next command is executed normally whatever the previous response was. That the response stays readable in
State is the model's choice (log entry 2). -/
def Obligations.EarlierResponseHasNoEffect : Prop :=
  ∀ (s : State) (k : Nat) (d : Descriptor) (rest : List HostEvent) (r : Option Response),
    s.inbox = .command k d :: rest → step { s with response := r } = step s

/-! ### Faults -/

/-- R186: a command reports one fault, the first of the checks in R77's order that fails, and code 0 when none fails. The range
and the reads checked are those of the fields `PTR` and `LEN`: the whole words `W3` and `W4` at the default widths (R71), and
in another configuration their low `AW` and `CW` bits, which is the model's choice (log entry 15). -/
def Obligations.FaultIsTheFirstFailingCheck : Prop :=
  ∀ (d : Descriptor) (s t : State) (r : Response), processDescriptor d s = .next t → t.response = some r →
    let usesContext := d.w0 = 2 ∨ d.w0 = 3
    let hasMessage := d.w0 = 2 ∨ d.w0 = 4 ∨ d.w0 = 5 ∨ d.w0 = 6
    let ptr := d.ptr s.config
    let len := d.len s.config
    (¬ SelectsCommand d → r.r0 = 1) ∧
    (SelectsCommand d → usesContext ∧ s.inited = false → r.r0 = 2) ∧
    (SelectsCommand d → ¬ (usesContext ∧ s.inited = false) → hasMessage ∧ PassesTop s.config ptr len → r.r0 = 3) ∧
    (SelectsCommand d → ¬ (usesContext ∧ s.inited = false) → ¬ (hasMessage ∧ PassesTop s.config ptr len) →
      hasMessage ∧ RefusedSomewhere s ptr len → r.r0 = 4) ∧
    (SelectsCommand d → ¬ (usesContext ∧ s.inited = false) → ¬ (hasMessage ∧ PassesTop s.config ptr len) →
      ¬ (hasMessage ∧ RefusedSomewhere s ptr len) → r.r0 = 0)

/-- R187: a fault gives zero digest words; the state after it is the state before, but for a refused read inside UPDATE,
which leaves the context invalidated. -/
def Obligations.FaultsArePrecise : Prop :=
  ∀ (d : Descriptor) (s t : State) (r : Response),
    processDescriptor d s = .next t → t.response = some r → r.r0 ≠ 0 →
    r.r1 = 0 ∧ r.r2 = 0 ∧
      (¬ (r.r0 = 4 ∧ d.w0 = 2) → t = { s with response := some r }) ∧
      (r.r0 = 4 ∧ d.w0 = 2 → t.inited = false ∧ SameOutside 0 s t)

/-- R183: UPDATE (also with `LEN = 0`) and FINALIZE without a context answer `(2, 0, 0)` and change nothing, and nothing
else answers code 2. -/
def Obligations.NotInitialisedFault : Prop :=
  (∀ (i : Instr) (s : State), NeedsContext i → s.inited = false →
    exec i s = .next { s with response := some ⟨2, 0, 0⟩ }) ∧
  (∀ (i : Instr) (s t : State) (r : Response), exec i s = .next t → t.response = some r → r.r0 = 2 →
    NeedsContext i ∧ s.inited = false)

/-- R184, R55: a message that would pass the top of the address space answers `(3, 0, 0)` and changes nothing; code 3 is
answered for no other message, so never with `LEN = 0` and never for one that ends at the last byte. -/
def Obligations.AddressRangeFault : Prop :=
  (∀ (i : Instr) (s : State) (ptr len : Word), messageOperand i = some (ptr, len) → PassesTop s.config ptr len →
    (NeedsContext i → s.inited = true) → exec i s = .next { s with response := some ⟨3, 0, 0⟩ }) ∧
  (∀ (i : Instr) (s t : State) (r : Response), exec i s = .next t → t.response = some r → r.r0 = 3 →
    ∃ ptr len, messageOperand i = some (ptr, len) ∧ PassesTop s.config ptr len)

/-- R185: a refused read answers `(4, 0, 0)`; a one-shot command changes nothing, UPDATE leaves `INITED = 0` (the rest of
its context unspecified, so nothing is said of it); code 4 needs a refused byte. -/
def Obligations.RefusedReadFault : Prop :=
  (∀ (i : Instr) (s : State) (ptr len : Word), messageOperand i = some (ptr, len) → ¬ NeedsContext i →
    ¬ PassesTop s.config ptr len → RefusedSomewhere s ptr len → exec i s = .next { s with response := some ⟨4, 0, 0⟩ }) ∧
  (∀ (s : State) (ptr len : Word), s.inited = true → ¬ PassesTop s.config ptr len → RefusedSomewhere s ptr len →
    ∃ t, exec (.update ptr len) s = .next t ∧ t.response = some ⟨4, 0, 0⟩ ∧ t.inited = false ∧
      SameOutside 0 s t) ∧
  (∀ (i : Instr) (s t : State) (r : Response), exec i s = .next t → t.response = some r → r.r0 = 4 →
    ∃ ptr len, messageOperand i = some (ptr, len) ∧ RefusedSomewhere s ptr len)

/-- R73, R181: every command that answers gives a response whose fault code is at most 4, whose unused digest words are
zero, and whose HASH32 digest is zero-extended. -/
def Obligations.ResponseWordsInRange : Prop :=
  ∀ (i : Instr) (s t : State), exec i s = .next t →
    ∃ r, t.response = some r ∧ r.r0.toNat ≤ 4 ∧ (r.r0 ≠ 0 → r.r1 = 0 ∧ r.r2 = 0) ∧
      ((∃ a b, i = .init a b) ∨ (∃ p n, i = .update p n) → r.r1 = 0 ∧ r.r2 = 0) ∧
      ((∃ a p n, i = .hash64 a p n) ∨ (∃ a p n, i = .hash32 a p n) → r.r2 = 0) ∧
      ((∃ a p n, i = .hash32 a p n) → r.r1.toNat < 2 ^ 32)

/-! ### The streaming commands -/

/-- R141: INIT completes in every state, seeds the accumulator, clears `PCNT`, `CLEN` and `OVF`, sets `INITED`, answers
`(0, 0, 0)` and changes nothing else: not the carry bytes, not the message memory. -/
def Obligations.InitSeedsTheContext : Prop :=
  ∀ (s0 s1 : Word) (s : State),
    exec (.init s0 s1) s =
      .next { s with
        acc := #v[s0, s1, s.config.K, s0, s1, s.config.K, s0, s1, s.config.K, s0, s1, s.config.K]
        pcnt := 0, clen := 0, ovf := false, inited := true, response := some ⟨0, 0, 0⟩ }

/-- R142: a zero-length UPDATE on an initialised context reads nothing, ignores `PTR`, changes no state and answers
`(0, 0, 0)`; on a context that is not initialised it answers `(2, 0, 0)`. -/
def Obligations.ZeroLengthUpdateIsNoOp : Prop :=
  ∀ (s : State) (ptr : Word),
    (s.inited = true → exec (.update ptr 0) s = .next { s with response := some ⟨0, 0, 0⟩ }) ∧
    (s.inited = false → exec (.update ptr 0) s = .next { s with response := some ⟨2, 0, 0⟩ })

/-- R143: UPDATE on a Small context whose total stays below 192 completes, appends the message to the carry, and changes
nothing else: `ACC`, `PCNT`, `OVF`, the other carry bytes and all of memory are as before. -/
def Obligations.UpdateAppendsWhileSmall : Prop :=
  ∀ (s : State) (ptr len : Word), s.inited = true → CanRead s ptr len → len ≠ 0 → s.small = true →
    s.clen.val + len.toNat < 192 →
    ∃ t, exec (.update ptr len) s = .next t ∧ t.clen.val = s.clen.val + len.toNat ∧
      t.carried = s.carried ++ message s ptr len ∧
      (∀ k : Fin 192, k.val < s.clen.val ∨ s.clen.val + len.toNat ≤ k.val → t.carry.get k = s.carry.get k) ∧
      t = { s with carry := t.carry, clen := t.clen, response := some ⟨0, 0, 0⟩ }

/-- R144, R146: UPDATE on a Large context, or one whose total reaches 192, completes: every whole stripe of the carried
bytes followed by the message goes into `ACC`, oldest first, 96 is added to the count for each, and the last bytes are
carried in order; the context is Large afterwards. Nothing but `ACC`, `CARRY`, `CLEN`, `PCNT`, `OVF`, the response and the
model's counter of free values changes; of the carry bytes from `CLEN` on, which R146 leaves unspecified, nothing is
said. That it says so of a Large context with `CLEN ≥ 96` too, where R31 gives the command rules no domain, is the model's
choice (log entry 10). -/
def Obligations.UpdateFoldsWholeStripes : Prop :=
  ∀ (s : State) (ptr len : Word), s.inited = true → CanRead s ptr len → len ≠ 0 →
    (s.large = true ∨ 192 ≤ s.clen.val + len.toNat) →
    let S := s.carried ++ message s ptr len
    let n := S.length / 96
    ∃ t, exec (.update ptr len) s = .next t ∧ S.length = s.clen.val + len.toNat ∧
      t.acc = (List.range n).foldl (fun A j => mixStripe A (slice S (96 * j) (96 * j + 96)) s.config) s.acc ∧
      (t.pcnt, t.ovf) = (List.range n).foldl (fun c _ => add96 c.1 c.2 s.config) (s.pcnt, s.ovf) ∧
      t.carried = S.drop (96 * n) ∧ t.clen.val = S.length % 96 ∧ t.large = true ∧
      t = { s with
        acc := t.acc, carry := t.carry, clen := t.clen, pcnt := t.pcnt, ovf := t.ovf, draws := t.draws
        response := some ⟨0, 0, 0⟩ }

/-- R145: `Add96` adds 96 to the count modulo 2^64 and sets the flag exactly when the sum as a natural number reaches 2^64
(`p ≥ 0xffffffffffffffa0`); it never clears the flag. In any configuration the same holds of `2^CW`. -/
def Obligations.Add96DetectsOverflow : Prop :=
  (∀ (p : Word) (v : Bool),
    (add96 p v).1.toNat = (p.toNat + 96) % 2 ^ 64 ∧
    ((add96 p v).2 = true ↔ v = true ∨ 2 ^ 64 ≤ p.toNat + 96) ∧
    (2 ^ 64 ≤ p.toNat + 96 ↔ 0xffffffffffffffa0 ≤ p.toNat)) ∧
  ∀ (p : Word) (v : Bool) (P : Params),
    (add96 p v P).1.toNat = (p.toNat + 96) % 2 ^ P.countWidth.val ∧
    ((add96 p v P).2 = true ↔ v = true ∨ 2 ^ P.countWidth.val ≤ p.toNat + 96)

/-- R144, R145: after `n` turns of the fold loop the count, of `CW` bits, is the true sum modulo `2^CW` and the flag is set
exactly when it was or the true sum has reached `2^CW`; R145's 2^64 is that of the default `CW` = 64, where every count has
`CW` bits. -/
def Obligations.FoldLoopCountsItsStripes : Prop :=
  ∀ (n : Nat) (S : List Byte) (s : State), s.pcnt.toNat < 2 ^ s.config.countWidth.val →
    (foldStripes n S s).pcnt.toNat = (s.pcnt.toNat + 96 * n) % 2 ^ s.config.countWidth.val ∧
    ((foldStripes n S s).ovf = true ↔ s.ovf = true ∨ 2 ^ s.config.countWidth.val ≤ s.pcnt.toNat + 96 * n)

/-- R190: an UPDATE that makes the count, of `CW` bits, overflow completes with code 0, does not report the flag, sets it, and
leaves the context Large. That it says so of a Large context with `CLEN ≥ 96` too, where R31 gives the command rules no domain,
is the model's choice (log entry 10). -/
def Obligations.OverflowIsNotAFault : Prop :=
  ∀ (s : State) (ptr len : Word), s.inited = true → CanRead s ptr len → len ≠ 0 →
    (s.large = true ∨ 192 ≤ s.clen.val + len.toNat) →
    s.pcnt.toNat < 2 ^ s.config.countWidth.val →
    2 ^ s.config.countWidth.val ≤ s.pcnt.toNat + 96 * ((s.clen.val + len.toNat) / 96) →
    ∃ t, exec (.update ptr len) s = .next t ∧ t.response = some ⟨0, 0, 0⟩ ∧ t.ovf = true ∧ t.large = true ∧
      t.inited = true

/-- R28: no command but INIT clears `OVF`, as long as the context stays initialised; and a set `OVF` makes the context
Large whatever the count is. -/
def Obligations.OverflowFlagIsSticky : Prop :=
  (∀ (i : Instr) (s t : State), (∀ a b, i ≠ .init a b) → s.ovf = true → exec i s = .next t →
    t.ovf = true ∨ (s.inited = true ∧ t.inited = false)) ∧
  ∀ s : State, s.ovf = true → s.large = true

/-- R140: the table of the state machine, one clause a row (the rows of UPDATE that differ only in their effect share a
clause): where each command takes the context. That UPDATE completes on a Large context with `CLEN ≥ 96` too is the model's
choice (log entry 10). -/
def Obligations.StateMachineTransitions : Prop :=
  (∀ (a b : Word) (s : State), ∃ t, exec (.init a b) s = .next t ∧ t.inited = true ∧ t.small = true) ∧
  (∀ (i : Instr) (s : State), NeedsContext i → s.inited = false →
    ∃ t, exec i s = .next t ∧ t = { s with response := some ⟨2, 0, 0⟩ }) ∧
  (∀ (s : State) (p n : Word), s.inited = true → CanRead s p n →
    ∃ t, exec (.update p n) s = .next t ∧ t.inited = true ∧
      (t.large = true ↔ s.large = true ∨ 192 ≤ s.clen.val + n.toNat)) ∧
  (∀ s : State, s.inited = true → (s.large = true → s.clen.val ≤ 95) →
    ∃ t, exec .finalize s = .next t ∧ t = { s with response := t.response }) ∧
  (∀ (s : State) (p n : Word), s.inited = true → ¬ PassesTop s.config p n → RefusedSomewhere s p n →
    ∃ t, exec (.update p n) s = .next t ∧ t.inited = false)

/-- R30: the only way back from Large to Small is INIT (or losing the context to a refused read). -/
def Obligations.LargeIsOneDirectional : Prop :=
  ∀ (i : Instr) (s t : State), (∀ a b, i ≠ .init a b) → s.large = true → exec i s = .next t →
    t.large = true ∨ (s.inited = true ∧ t.inited = false)

/-- R149: FINALIZE without a context answers `(2, 0, 0)`; when R149's three conditions hold it answers `Short` of the carried
bytes with the seeds in `ACC[0]`, `ACC[1]`; otherwise, with `CLEN ≤ 95`, the first two words of `End` of `ACC` and the tagged
carried bytes; it changes nothing but the response. -/
def Obligations.FinalizeReturnsTheDigest : Prop :=
  ∀ s : State,
    (s.inited = false → exec .finalize s = .next { s with response := some ⟨2, 0, 0⟩ }) ∧
    (s.inited = true → s.ovf = false ∧ s.pcnt = 0 ∧ s.pcnt.toNat + s.clen.val < 192 →
      exec .finalize s =
        .next { s with
          response := some ⟨0, (short s.carried (s.acc.get 0) (s.acc.get 1) s.config).1,
            (short s.carried (s.acc.get 0) (s.acc.get 1) s.config).2⟩ }) ∧
    (s.inited = true → ¬ (s.ovf = false ∧ s.pcnt = 0 ∧ s.pcnt.toNat + s.clen.val < 192) → s.clen.val ≤ 95 →
      exec .finalize s =
        .next { s with
          response := some ⟨0, (endBlock s.acc (tagBlock s.carried) s.config).get 0,
            (endBlock s.acc (tagBlock s.carried) s.config).get 1⟩ })

/-- Log entry 9 (R149: the Large path has `CLEN ≤ 95` as its precondition; 93 ID18): FINALIZE on a Large context with
`CLEN ≥ 96` is refused by name, and that is the one case in which any command is refused. -/
def Obligations.OnlyFinalizeOutsideTheInvariantIsRefused : Prop :=
  ∀ (i : Instr) (s : State) (f : Refusal),
    exec i s = .refused f ↔
      i = .finalize ∧ s.inited = true ∧ s.large = true ∧ 96 ≤ s.clen.val ∧ f = .finalizeCarryPastStripe

/-- R36: a command that is neither INIT nor UPDATE changes nothing but the response, and the response of a one-shot command
does not depend on the context. -/
def Obligations.OnlyInitAndUpdateWriteTheContext : Prop :=
  (∀ (i : Instr) (s t : State), (∀ a b, i ≠ .init a b) → (∀ p n, i ≠ .update p n) → exec i s = .next t →
    t = { s with response := t.response }) ∧
  (∀ (i : Instr) (s u : State), (∀ a b, i ≠ .init a b) → ¬ NeedsContext i → u.mem = s.mem →
    u.unreadable = s.unreadable → u.config = s.config →
    ∃ r, exec i s = .next { s with response := some r } ∧ exec i u = .next { u with response := some r })

/-- R151: for every pair of seeds and every stream of UPDATEs of a context of the block, with FINALIZEs, one-shot commands,
faulting commands, host writes and commands on other contexts interleaved, running INIT, the stream and FINALIZE answers the
one-shot hash of all the bytes. The other contexts, none by default, are to be as R31 says, so that no command on one of them
is refused (log entry 9). -/
def Obligations.StreamingEqualsOneShot : Prop :=
  ∀ (s : State) (k : Nat) (s0 s1 : Word) (es rest : List HostEvent), k ≤ s.others.length →
    (∀ j c, j ≠ k → s.contextAt j = some c → c.inited = true → ContextOk s.config c) →
    s.inbox = issue k (.init s0 s1) :: (es ++ issue k .finalize :: rest) → (∀ e ∈ es, KeepsStream k s e) →
    ∃ t, Host.Core.run Sys2Proof.core (es.length + 2) s = .next t ∧ t.inbox = rest ∧
      t.response = some ⟨0, (hash128 (streamBytes s.config k s.mem es) s0 s1 s.config).1,
        (hash128 (streamBytes s.config k s.mem es) s0 s1 s.config).2⟩

/-- R31: INIT begins the empty stream, an UPDATE whose message can be read extends the stream by the message, every other
command leaves it, and while it has not overflowed the count and the carry length add up to the length of the stream. -/
def Obligations.ContextHoldsItsStream : Prop :=
  (∀ (s0 s1 : Word) (s : State), ∃ t, exec (.init s0 s1) s = .next t ∧ t.config = s.config ∧
    HoldsStream s.config s0 s1 [] t.toContext) ∧
  (∀ (s0 s1 : Word) (T : List Byte) (s : State) (ptr len : Word), HoldsStream s.config s0 s1 T s.toContext →
    CanRead s ptr len →
    ∃ t, exec (.update ptr len) s = .next t ∧ HoldsStream s.config s0 s1 (T ++ message s ptr len) t.toContext) ∧
  (∀ (s0 s1 : Word) (T : List Byte) (s : State) (i : Instr), HoldsStream s.config s0 s1 T s.toContext →
    (∀ a b, i ≠ .init a b) → (∀ p n, i ≠ .update p n) →
    ∃ t, exec i s = .next t ∧ HoldsStream s.config s0 s1 T t.toContext) ∧
  (∀ (P : Params) (s0 s1 : Word) (T : List Byte) (c : Context), HoldsStream P s0 s1 T c → c.ovf = false →
    c.pcnt.toNat + c.clen.val = T.length)

/-- R152: the boundary table: for a stream of `T.length` bytes, whatever the chunks, the state, `PCNT`, `CLEN`, and what
FINALIZE computes; in every configuration whose count can hold the table's numbers. -/
def Obligations.BoundaryTable : Prop :=
  ∀ (s0 s1 : Word) (T : List Byte) (s : State), 288 < 2 ^ s.config.countWidth.val →
    HoldsStream s.config s0 s1 T s.toContext →
    (T.length ∈ [0, 95, 96, 97, 191] →
      s.small = true ∧ s.pcnt = 0 ∧ s.clen.val = T.length ∧
      exec .finalize s =
        .next { s with response := some ⟨0, (short T s0 s1 s.config).1, (short T s0 s1 s.config).2⟩ }) ∧
    (∀ row ∈ [(192, 192, 0), (193, 192, 1), (287, 192, 95), (288, 288, 0)], T.length = row.1 →
      s.large = true ∧ s.pcnt = BitVec.ofNat 64 row.2.1 ∧ s.clen.val = row.2.2 ∧
      (tagBlock s.carried)[95]? = some (BitVec.ofNat 8 row.2.2) ∧
      exec .finalize s =
        .next { s with
          response := some ⟨0, (endBlock s.acc (tagBlock s.carried) s.config).get 0,
            (endBlock s.acc (tagBlock s.carried) s.config).get 1⟩ })

/-! ### The one-shot commands -/

/-- R171: HASH128 completes on every message that can be read, in every state, with the two digest words of `Hash128`, and
changes nothing but the response; with `LEN = 0` it reads nothing and `PTR` has no effect; otherwise its faults. -/
def Obligations.Hash128ReturnsBothWords : Prop :=
  ∀ (s : State) (s0 s1 ptr len : Word),
    (CanRead s ptr len →
      exec (.hash128 s0 s1 ptr len) s =
        .next { s with
          response := some ⟨0, (hash128 (message s ptr len) s0 s1 s.config).1,
            (hash128 (message s ptr len) s0 s1 s.config).2⟩ }) ∧
    (exec (.hash128 s0 s1 ptr 0) s =
      .next { s with response := some ⟨0, (short [] s0 s1 s.config).1, (short [] s0 s1 s.config).2⟩ }) ∧
    (PassesTop s.config ptr len → exec (.hash128 s0 s1 ptr len) s = .next { s with response := some ⟨3, 0, 0⟩ }) ∧
    (¬ PassesTop s.config ptr len → RefusedSomewhere s ptr len →
      exec (.hash128 s0 s1 ptr len) s = .next { s with response := some ⟨4, 0, 0⟩ })

/-- R172: HASH64 completes likewise with the first digest word of `Hash128` of the seed in both halves, and `R2 = 0`; that the first word is kept the spec takes from general knowledge (log entry 11). -/
def Obligations.Hash64ReturnsTheFirstWord : Prop :=
  ∀ (s : State) (seed ptr len : Word),
    (CanRead s ptr len →
      exec (.hash64 seed ptr len) s =
        .next { s with response := some ⟨0, (hash128 (message s ptr len) seed seed s.config).1, 0⟩ }) ∧
    (PassesTop s.config ptr len → exec (.hash64 seed ptr len) s = .next { s with response := some ⟨3, 0, 0⟩ }) ∧
    (¬ PassesTop s.config ptr len → RefusedSomewhere s ptr len →
      exec (.hash64 seed ptr len) s = .next { s with response := some ⟨4, 0, 0⟩ })

/-- R173: HASH32 completes likewise: the seed zero-extended into both halves, the low 32 bits of the first digest word
zero-extended, `R2 = 0`; the widening and the kept half the spec takes from general knowledge (log entry 11). With seed 0 the
seed pair is `(0, 0)`: no seed is substituted (R174). -/
def Obligations.Hash32ReturnsTheLowHalf : Prop :=
  (∀ (s : State) (seed : Half) (ptr len : Word),
    let wide : Word := BitVec.ofNat 64 seed.toNat
    (CanRead s ptr len →
      exec (.hash32 seed ptr len) s =
        .next { s with
          response := some ⟨0, BitVec.ofNat 64 ((hash128 (message s ptr len) wide wide s.config).1.toNat % 2 ^ 32), 0⟩ }) ∧
    (PassesTop s.config ptr len → exec (.hash32 seed ptr len) s = .next { s with response := some ⟨3, 0, 0⟩ }) ∧
    (¬ PassesTop s.config ptr len → RefusedSomewhere s ptr len →
      exec (.hash32 seed ptr len) s = .next { s with response := some ⟨4, 0, 0⟩ })) ∧
  ∀ (s : State) (ptr len : Word), CanRead s ptr len →
    exec (.hash32 0 ptr len) s =
      .next { s with
        response := some ⟨0, BitVec.ofNat 64 ((hash128 (message s ptr len) 0 0 s.config).1.toNat % 2 ^ 32), 0⟩ }

/-- R170: the dispatch by length, strict at 192. -/
def Obligations.DispatchIsStrictAt192 : Prop :=
  ∀ (B : List Byte) (s0 s1 : Word) (P : Params),
    (B.length ≤ 191 → hash128 B s0 s1 P = short B s0 s1 P) ∧ (192 ≤ B.length → hash128 B s0 s1 P = bulk B s0 s1 P)

/-- R80: the three identities between commands. -/
def Obligations.CommandIdentities : Prop :=
  (∀ (s : State) (a p n : Word), ∃ r : Response,
    exec (.hash128 a a p n) s = .next { s with response := some r } ∧
    exec (.hash64 a p n) s = .next { s with response := some ⟨r.r0, r.r1, 0⟩ }) ∧
  (∀ (s : State) (a : Half) (p n : Word), ∃ r : Response,
    exec (.hash64 (BitVec.ofNat 64 a.toNat) p n) s = .next { s with response := some r } ∧
    exec (.hash32 a p n) s = .next { s with response := some ⟨r.r0, BitVec.ofNat 64 (r.r1.toNat % 2 ^ 32), 0⟩ }) ∧
  (∀ (s : State) (s0 s1 p n : Word), CanRead s p n →
    ∃ t u v, exec (.init s0 s1) s = .next t ∧ exec (.update p n) t = .next u ∧ exec .finalize u = .next v ∧
      exec (.hash128 s0 s1 p n) s = .next { s with response := v.response })

/-! ### The message memory -/

/-- R51: no command writes message memory. That none changes the refused regions (R56), the pending events, the configuration
(R201) or the other contexts (R192) is said of the model's own fields and choices: log entries 5, 1, 15 and 16. -/
def Obligations.CommandsNeverWriteMemory : Prop :=
  ∀ (i : Instr) (s t : State), exec i s = .next t →
    (∀ a, t.mem.read a = s.mem.read a) ∧ t.mem = s.mem ∧ t.unreadable = s.unreadable ∧ t.inbox = s.inbox ∧
      t.config = s.config ∧ t.others = s.others

/-- R54: a command depends on the message memory only through the addresses of its message; with `LEN = 0`, or without a
message operand, on none. -/
def Obligations.CommandsReadOnlyTheirMessage : Prop :=
  ∀ (i : Instr) (s : State) (m : Memory),
    (∀ ptr len, messageOperand i = some (ptr, len) → ∀ a, ptr.toNat ≤ a → a < ptr.toNat + len.toNat →
      m.read a = s.mem.read a) →
    (∀ t, exec i s = .next t → exec i { s with mem := m } = .next { t with mem := m }) ∧
    (∀ f, exec i s = .refused f → exec i { s with mem := m } = .refused f)

/-- R53, R118: the same message bytes at another address, of any alignment, give the same responses of the one-shot
commands, and the same context after UPDATE. -/
def Obligations.PlacementHasNoEffect : Prop :=
  ∀ (s : State) (p q len : Word), CanRead s p len → CanRead s q len →
    (∀ k, k < len.toNat → s.mem.read (p.toNat + k) = s.mem.read (q.toNat + k)) →
    (∀ a b, exec (.hash128 a b p len) s = exec (.hash128 a b q len) s) ∧
    (∀ a, exec (.hash64 a p len) s = exec (.hash64 a q len) s) ∧
    (∀ a, exec (.hash32 a p len) s = exec (.hash32 a q len) s) ∧
    exec (.update p len) s = exec (.update q len) s

/-- The host's write (log entries 6 and 7): a read after a write gives the value at the written address and the old
value elsewhere. -/
def Obligations.MemoryReadAfterWrite : Prop :=
  ∀ (m : Memory) (P : Params) (a : Nat) (v : Byte), m.wf P = true → ∀ b, (m.write a v).read b = if b = a then v else m.read b

/-- The canonical form (log entry 6): memories in it that read the same everywhere are equal. -/
def Obligations.CanonicalMemoriesAreEqual : Prop :=
  ∀ (m m' : Memory) (P : Params), m.wf P = true → m'.wf P = true →
    (∀ a, a < 2 ^ P.addressWidth.val → m.read a = m'.read a) → m = m'

/-- R52, R90 (the byte order is the spec's addition, log entry 11): words are assembled little-endian from the message memory, at any address; a 32-bit read is the low half of
the 64-bit read at the same address; the word read at offset `o` of a message is the read at `PTR + o`. -/
def Obligations.WordReadsAreLittleEndian : Prop :=
  ∀ (m : Memory) (a : Nat),
    (m.read64 a).toNat = ((List.range 8).map fun i => (m.read (a + i)).toNat * 2 ^ (8 * i)).sum ∧
    (m.read32 a).toNat = ((List.range 4).map fun i => (m.read (a + i)).toNat * 2 ^ (8 * i)).sum ∧
    m.read32 a = (m.read64 a).setWidth 32 ∧
    ∀ n o, o + 8 ≤ n → le64 (m.bytes a n) o = m.read64 (a + o)

/-! ### Primitives and mixers -/

/-- R92 (the direction is the spec's addition, log entry 11): bit `i` of the word is bit `(i + k) mod 64` of the rotated
word, for every amount 1 to 63. -/
def Obligations.RotateMovesEachBit : Prop :=
  ∀ (x : Word) (k i : Nat), 1 ≤ k → k ≤ 63 → i < 64 → (rotl64 x k).getLsbD ((i + k) % 64) = x.getLsbD i

/-- R93: the zero-padded word of at most eight bytes is the sum of its bytes in their lanes; of no bytes, 0. -/
def Obligations.PaddedWordIsTheSumOfItsBytes : Prop :=
  (∀ T : List Byte, T.length ≤ 8 →
    (lepad64 T).toNat = ((List.range T.length).map fun i => (T.getD i 0).toNat * 2 ^ (8 * i)).sum) ∧ lepad64 [] = 0

/-- R97: each mixer is a bijection on its word vector for a fixed message block. -/
def Obligations.MixersAreBijections : Prop :=
  Function.Bijective shortMix ∧ Function.Bijective shortEnd ∧ Function.Bijective endPartial ∧
    ∀ X : List Byte, Function.Bijective (fun S => mixStripe S X)

/-- R111: the twelve steps of the short mix, each written out as the rule writes it, and their order. The
operand pattern is the spec's addition from general knowledge (log entry 11). -/
def Obligations.ShortMixWrittenOut : Prop :=
  (∀ a b c d : Word,
    shortMixStep #v[a, b, c, d] 0 =
      (let c := rotl64 c 50; let c := c + d; let a := a ^^^ c; #v[a, b, c, d]) ∧
    shortMixStep #v[a, b, c, d] 1 =
      (let d := rotl64 d 52; let d := d + a; let b := b ^^^ d; #v[a, b, c, d]) ∧
    shortMixStep #v[a, b, c, d] 2 =
      (let a := rotl64 a 30; let a := a + b; let c := c ^^^ a; #v[a, b, c, d]) ∧
    shortMixStep #v[a, b, c, d] 3 =
      (let b := rotl64 b 41; let b := b + c; let d := d ^^^ b; #v[a, b, c, d]) ∧
    shortMixStep #v[a, b, c, d] 4 =
      (let c := rotl64 c 54; let c := c + d; let a := a ^^^ c; #v[a, b, c, d]) ∧
    shortMixStep #v[a, b, c, d] 5 =
      (let d := rotl64 d 48; let d := d + a; let b := b ^^^ d; #v[a, b, c, d]) ∧
    shortMixStep #v[a, b, c, d] 6 =
      (let a := rotl64 a 38; let a := a + b; let c := c ^^^ a; #v[a, b, c, d]) ∧
    shortMixStep #v[a, b, c, d] 7 =
      (let b := rotl64 b 37; let b := b + c; let d := d ^^^ b; #v[a, b, c, d]) ∧
    shortMixStep #v[a, b, c, d] 8 =
      (let c := rotl64 c 62; let c := c + d; let a := a ^^^ c; #v[a, b, c, d]) ∧
    shortMixStep #v[a, b, c, d] 9 =
      (let d := rotl64 d 34; let d := d + a; let b := b ^^^ d; #v[a, b, c, d]) ∧
    shortMixStep #v[a, b, c, d] 10 =
      (let a := rotl64 a 5; let a := a + b; let c := c ^^^ a; #v[a, b, c, d]) ∧
    shortMixStep #v[a, b, c, d] 11 =
      (let b := rotl64 b 36; let b := b + c; let d := d ^^^ b; #v[a, b, c, d])) ∧
  ∀ h : Vector Word 4, shortMix h =
    [0, 1, 2, 3, 4, 5, 6, 7, 8, 9, 10, 11].foldl shortMixStep h

/-- R112: the eleven steps of the short end, each written out as the rule writes it, and their order. The
operand pattern is the spec's addition from general knowledge (log entry 11). -/
def Obligations.ShortEndWrittenOut : Prop :=
  (∀ a b c d : Word,
    shortEndStep #v[a, b, c, d] 0 =
      (let d := d ^^^ c; let c := rotl64 c 15; let d := d + c; #v[a, b, c, d]) ∧
    shortEndStep #v[a, b, c, d] 1 =
      (let a := a ^^^ d; let d := rotl64 d 52; let a := a + d; #v[a, b, c, d]) ∧
    shortEndStep #v[a, b, c, d] 2 =
      (let b := b ^^^ a; let a := rotl64 a 26; let b := b + a; #v[a, b, c, d]) ∧
    shortEndStep #v[a, b, c, d] 3 =
      (let c := c ^^^ b; let b := rotl64 b 51; let c := c + b; #v[a, b, c, d]) ∧
    shortEndStep #v[a, b, c, d] 4 =
      (let d := d ^^^ c; let c := rotl64 c 28; let d := d + c; #v[a, b, c, d]) ∧
    shortEndStep #v[a, b, c, d] 5 =
      (let a := a ^^^ d; let d := rotl64 d 9; let a := a + d; #v[a, b, c, d]) ∧
    shortEndStep #v[a, b, c, d] 6 =
      (let b := b ^^^ a; let a := rotl64 a 47; let b := b + a; #v[a, b, c, d]) ∧
    shortEndStep #v[a, b, c, d] 7 =
      (let c := c ^^^ b; let b := rotl64 b 54; let c := c + b; #v[a, b, c, d]) ∧
    shortEndStep #v[a, b, c, d] 8 =
      (let d := d ^^^ c; let c := rotl64 c 32; let d := d + c; #v[a, b, c, d]) ∧
    shortEndStep #v[a, b, c, d] 9 =
      (let a := a ^^^ d; let d := rotl64 d 25; let a := a + d; #v[a, b, c, d]) ∧
    shortEndStep #v[a, b, c, d] 10 =
      (let b := b ^^^ a; let a := rotl64 a 63; let b := b + a; #v[a, b, c, d])) ∧
  ∀ h : Vector Word 4, shortEnd h = [0, 1, 2, 3, 4, 5, 6, 7, 8, 9, 10].foldl shortEndStep h

/-- R131: the twelve steps of the stripe permutation, each written out as the rule writes it, on the twelve words of the
stripe, and their order. The
operand pattern is the spec's addition from general knowledge (log entry 11). -/
def Obligations.MixStripeWrittenOut : Prop :=
  (∀ (w : Vector Word 12) (S0 S1 S2 S3 S4 S5 S6 S7 S8 S9 S10 S11 : Word),
    mixStripeStep w #v[S0, S1, S2, S3, S4, S5, S6, S7, S8, S9, S10, S11] 0 =
      (let S0 := S0 + w.get 0; let S2 := S2 ^^^ S10; let S11 := S11 ^^^ S0; let S0 := rotl64 S0 11; let S11 := S11 + S1
       #v[S0, S1, S2, S3, S4, S5, S6, S7, S8, S9, S10, S11]) ∧
    mixStripeStep w #v[S0, S1, S2, S3, S4, S5, S6, S7, S8, S9, S10, S11] 1 =
      (let S1 := S1 + w.get 1; let S3 := S3 ^^^ S11; let S0 := S0 ^^^ S1; let S1 := rotl64 S1 32; let S0 := S0 + S2
       #v[S0, S1, S2, S3, S4, S5, S6, S7, S8, S9, S10, S11]) ∧
    mixStripeStep w #v[S0, S1, S2, S3, S4, S5, S6, S7, S8, S9, S10, S11] 2 =
      (let S2 := S2 + w.get 2; let S4 := S4 ^^^ S0; let S1 := S1 ^^^ S2; let S2 := rotl64 S2 43; let S1 := S1 + S3
       #v[S0, S1, S2, S3, S4, S5, S6, S7, S8, S9, S10, S11]) ∧
    mixStripeStep w #v[S0, S1, S2, S3, S4, S5, S6, S7, S8, S9, S10, S11] 3 =
      (let S3 := S3 + w.get 3; let S5 := S5 ^^^ S1; let S2 := S2 ^^^ S3; let S3 := rotl64 S3 31; let S2 := S2 + S4
       #v[S0, S1, S2, S3, S4, S5, S6, S7, S8, S9, S10, S11]) ∧
    mixStripeStep w #v[S0, S1, S2, S3, S4, S5, S6, S7, S8, S9, S10, S11] 4 =
      (let S4 := S4 + w.get 4; let S6 := S6 ^^^ S2; let S3 := S3 ^^^ S4; let S4 := rotl64 S4 17; let S3 := S3 + S5
       #v[S0, S1, S2, S3, S4, S5, S6, S7, S8, S9, S10, S11]) ∧
    mixStripeStep w #v[S0, S1, S2, S3, S4, S5, S6, S7, S8, S9, S10, S11] 5 =
      (let S5 := S5 + w.get 5; let S7 := S7 ^^^ S3; let S4 := S4 ^^^ S5; let S5 := rotl64 S5 28; let S4 := S4 + S6
       #v[S0, S1, S2, S3, S4, S5, S6, S7, S8, S9, S10, S11]) ∧
    mixStripeStep w #v[S0, S1, S2, S3, S4, S5, S6, S7, S8, S9, S10, S11] 6 =
      (let S6 := S6 + w.get 6; let S8 := S8 ^^^ S4; let S5 := S5 ^^^ S6; let S6 := rotl64 S6 39; let S5 := S5 + S7
       #v[S0, S1, S2, S3, S4, S5, S6, S7, S8, S9, S10, S11]) ∧
    mixStripeStep w #v[S0, S1, S2, S3, S4, S5, S6, S7, S8, S9, S10, S11] 7 =
      (let S7 := S7 + w.get 7; let S9 := S9 ^^^ S5; let S6 := S6 ^^^ S7; let S7 := rotl64 S7 57; let S6 := S6 + S8
       #v[S0, S1, S2, S3, S4, S5, S6, S7, S8, S9, S10, S11]) ∧
    mixStripeStep w #v[S0, S1, S2, S3, S4, S5, S6, S7, S8, S9, S10, S11] 8 =
      (let S8 := S8 + w.get 8; let S10 := S10 ^^^ S6; let S7 := S7 ^^^ S8; let S8 := rotl64 S8 55; let S7 := S7 + S9
       #v[S0, S1, S2, S3, S4, S5, S6, S7, S8, S9, S10, S11]) ∧
    mixStripeStep w #v[S0, S1, S2, S3, S4, S5, S6, S7, S8, S9, S10, S11] 9 =
      (let S9 := S9 + w.get 9; let S11 := S11 ^^^ S7; let S8 := S8 ^^^ S9; let S9 := rotl64 S9 54; let S8 := S8 + S10
       #v[S0, S1, S2, S3, S4, S5, S6, S7, S8, S9, S10, S11]) ∧
    mixStripeStep w #v[S0, S1, S2, S3, S4, S5, S6, S7, S8, S9, S10, S11] 10 =
      (let S10 := S10 + w.get 10; let S0 := S0 ^^^ S8; let S9 := S9 ^^^ S10; let S10 := rotl64 S10 22; let S9 := S9 + S11
       #v[S0, S1, S2, S3, S4, S5, S6, S7, S8, S9, S10, S11]) ∧
    mixStripeStep w #v[S0, S1, S2, S3, S4, S5, S6, S7, S8, S9, S10, S11] 11 =
      (let S11 := S11 + w.get 11; let S1 := S1 ^^^ S9; let S10 := S10 ^^^ S11; let S11 := rotl64 S11 46; let S10 := S10 + S0
       #v[S0, S1, S2, S3, S4, S5, S6, S7, S8, S9, S10, S11])) ∧
  ∀ (A : Vector Word 12) (X : List Byte), mixStripe A X =
    [0, 1, 2, 3, 4, 5, 6, 7, 8, 9, 10, 11].foldl (mixStripeStep (Vector.ofFn fun i => le64 X (8 * i.val))) A

/-- R101: the twelve steps of a diffusion round, each written out as the rule writes it, and their order. The
operand pattern is the spec's addition from general knowledge (log entry 11). -/
def Obligations.EndPartialWrittenOut : Prop :=
  (∀ H0 H1 H2 H3 H4 H5 H6 H7 H8 H9 H10 H11 : Word,
    endPartialStep #v[H0, H1, H2, H3, H4, H5, H6, H7, H8, H9, H10, H11] 0 =
      (let H11 := H11 + H1; let H2 := H2 ^^^ H11; let H1 := rotl64 H1 44
       #v[H0, H1, H2, H3, H4, H5, H6, H7, H8, H9, H10, H11]) ∧
    endPartialStep #v[H0, H1, H2, H3, H4, H5, H6, H7, H8, H9, H10, H11] 1 =
      (let H0 := H0 + H2; let H3 := H3 ^^^ H0; let H2 := rotl64 H2 15
       #v[H0, H1, H2, H3, H4, H5, H6, H7, H8, H9, H10, H11]) ∧
    endPartialStep #v[H0, H1, H2, H3, H4, H5, H6, H7, H8, H9, H10, H11] 2 =
      (let H1 := H1 + H3; let H4 := H4 ^^^ H1; let H3 := rotl64 H3 34
       #v[H0, H1, H2, H3, H4, H5, H6, H7, H8, H9, H10, H11]) ∧
    endPartialStep #v[H0, H1, H2, H3, H4, H5, H6, H7, H8, H9, H10, H11] 3 =
      (let H2 := H2 + H4; let H5 := H5 ^^^ H2; let H4 := rotl64 H4 21
       #v[H0, H1, H2, H3, H4, H5, H6, H7, H8, H9, H10, H11]) ∧
    endPartialStep #v[H0, H1, H2, H3, H4, H5, H6, H7, H8, H9, H10, H11] 4 =
      (let H3 := H3 + H5; let H6 := H6 ^^^ H3; let H5 := rotl64 H5 38
       #v[H0, H1, H2, H3, H4, H5, H6, H7, H8, H9, H10, H11]) ∧
    endPartialStep #v[H0, H1, H2, H3, H4, H5, H6, H7, H8, H9, H10, H11] 5 =
      (let H4 := H4 + H6; let H7 := H7 ^^^ H4; let H6 := rotl64 H6 33
       #v[H0, H1, H2, H3, H4, H5, H6, H7, H8, H9, H10, H11]) ∧
    endPartialStep #v[H0, H1, H2, H3, H4, H5, H6, H7, H8, H9, H10, H11] 6 =
      (let H5 := H5 + H7; let H8 := H8 ^^^ H5; let H7 := rotl64 H7 10
       #v[H0, H1, H2, H3, H4, H5, H6, H7, H8, H9, H10, H11]) ∧
    endPartialStep #v[H0, H1, H2, H3, H4, H5, H6, H7, H8, H9, H10, H11] 7 =
      (let H6 := H6 + H8; let H9 := H9 ^^^ H6; let H8 := rotl64 H8 13
       #v[H0, H1, H2, H3, H4, H5, H6, H7, H8, H9, H10, H11]) ∧
    endPartialStep #v[H0, H1, H2, H3, H4, H5, H6, H7, H8, H9, H10, H11] 8 =
      (let H7 := H7 + H9; let H10 := H10 ^^^ H7; let H9 := rotl64 H9 38
       #v[H0, H1, H2, H3, H4, H5, H6, H7, H8, H9, H10, H11]) ∧
    endPartialStep #v[H0, H1, H2, H3, H4, H5, H6, H7, H8, H9, H10, H11] 9 =
      (let H8 := H8 + H10; let H11 := H11 ^^^ H8; let H10 := rotl64 H10 53
       #v[H0, H1, H2, H3, H4, H5, H6, H7, H8, H9, H10, H11]) ∧
    endPartialStep #v[H0, H1, H2, H3, H4, H5, H6, H7, H8, H9, H10, H11] 10 =
      (let H9 := H9 + H11; let H0 := H0 ^^^ H9; let H11 := rotl64 H11 42
       #v[H0, H1, H2, H3, H4, H5, H6, H7, H8, H9, H10, H11]) ∧
    endPartialStep #v[H0, H1, H2, H3, H4, H5, H6, H7, H8, H9, H10, H11] 11 =
      (let H10 := H10 + H0; let H1 := H1 ^^^ H10; let H0 := rotl64 H0 54
       #v[H0, H1, H2, H3, H4, H5, H6, H7, H8, H9, H10, H11])) ∧
  ∀ H : Vector Word 12, endPartial H = [0, 1, 2, 3, 4, 5, 6, 7, 8, 9, 10, 11].foldl endPartialStep H

/-- R102, R103: `End` adds word `i` of the block into word `i` of the vector and applies three diffusion rounds. -/
def Obligations.EndAddsThenDiffuses : Prop :=
  ∀ (H G : Vector Word 12) (X : List Byte), (∀ i : Fin 12, G.get i = H.get i + le64 X (8 * i.val)) →
    endBlock H X = endPartial (endPartial (endPartial G))

/-- R134: absorbing is stripe by stripe, oldest first; absorbing nothing changes nothing; and absorbing a concatenation
is absorbing the parts when the first part is whole stripes. -/
def Obligations.AbsorbIsStripeByStripe : Prop :=
  (∀ (S : Vector Word 12) (Y : List Byte), Y.length % 96 = 0 →
    absorb S Y = (List.range (Y.length / 96)).foldl (fun A j => mixStripe A (slice Y (96 * j) (96 * j + 96))) S) ∧
  (∀ S : Vector Word 12, absorb S [] = S) ∧
  (∀ (S : Vector Word 12) (Y1 Y2 : List Byte), Y1.length % 96 = 0 → absorb S (Y1 ++ Y2) = absorb (absorb S Y1) Y2)

/-- R132: the tagged final block is 96 bytes: the leftover, zeros up to byte 94, and the leftover length in byte 95, which
is the top byte of its last word. -/
def Obligations.TagBlockLayout : Prop :=
  ∀ T : List Byte, T.length ≤ 95 →
    (tagBlock T).length = 96 ∧
    (∀ k, k < T.length → (tagBlock T)[k]? = T[k]?) ∧
    (∀ k, T.length ≤ k → k ≤ 94 → (tagBlock T)[k]? = some 0) ∧
    (tagBlock T)[95]? = some (BitVec.ofNat 8 T.length) ∧
    ((words12 (tagBlock T)).get 11).toNat / 2 ^ 56 = T.length

/-- R104, R135: different leftovers have different tagged final blocks, also when they differ only in length, and the
words of the blocks differ too. -/
def Obligations.TagBlockTellsLeftoversApart : Prop :=
  ∀ T T' : List Byte, T.length ≤ 95 → T'.length ≤ 95 → words12 (tagBlock T) = words12 (tagBlock T') → T = T'

/-- R115, R116 (the lanes are the spec's addition, log entry 11): for a tail of `r ≤ 15` bytes at the end of the message, the
two padded words are the document's per-byte table: tail byte `p`, from the last down to the first, contributes to `c` at
lane `p` for `p ≤ 7` and to `d` at lane `p - 8` for `p ≥ 8`; for the empty tail the constant goes into both, whatever the
message before it. -/
def Obligations.TailIsThePerByteTable : Prop :=
  ∀ (B : List Byte) (o r : Nat) (a b c d : Word), o + r = B.length → r ≤ 15 →
    foldTail B #v[a, b, c, d] o r =
      if r = 0 then #v[a, b, c + K, d + K]
      else
        (List.range r).reverse.foldl
          (fun h p =>
            let v : Word := BitVec.ofNat 64 (B.getD (o + p) 0).toNat
            if p ≤ 7 then put h 2 (h.get 2 + v <<< (8 * p)) else put h 3 (h.get 3 + v <<< (8 * (p - 8))))
          #v[a, b, c, d]

/-- R117, line by line, for every message of at most 191 bytes (the spec derives it from R111 to R116): the full stripes
(R113), the extra half-stripe (R114), the total length into the high byte of `d` (R116), the tail (R115) or the constant
(R116), the avalanche round, and the digest `(a, b)`; so the digest of the empty message is the short end of the seeds and the
constant twice. Which word takes which read is the spec's addition (log entry 11). -/
def Obligations.ShortWrittenOut : Prop :=
  (∀ (B : List Byte) (s0 s1 : Word), B.length ≤ 191 →
    let n := B.length
    let q := n / 32
    let r0 := n % 32
    let mixIn := fun (h : Vector Word 4) (o : Nat) =>
      shortMix #v[h.get 0, h.get 1, h.get 2 + le64 B o, h.get 3 + le64 B (o + 8)]
    let h := (List.range q).foldl
      (fun h k =>
        let h := mixIn h (32 * k)
        #v[h.get 0 + le64 B (32 * k + 16), h.get 1 + le64 B (32 * k + 24), h.get 2, h.get 3])
      #v[s0, s1, K, K]
    let h := if 16 ≤ r0 then mixIn h (32 * q) else h
    let o := if 16 ≤ r0 then 32 * q + 16 else 32 * q
    let r := if 16 ≤ r0 then r0 - 16 else r0
    let a := h.get 0
    let b := h.get 1
    let c := h.get 2
    let d := h.get 3 + (BitVec.ofNat 64 n <<< 56)
    let c' := if r = 0 then c + K else c + lepad64 (slice B o (o + min r 8))
    let d' := if r = 0 then d + K else d + lepad64 (slice B (o + 8) (o + r))
    let h := shortEnd #v[a, b, c', d']
    o + r = n ∧ r ≤ 15 ∧ short B s0 s1 = (h.get 0, h.get 1)) ∧
  ∀ s0 s1 : Word,
    short [] s0 s1 = ((shortEnd #v[s0, s1, K + K, K + K]).get 0, (shortEnd #v[s0, s1, K + K, K + K]).get 1)

/-- R133, line by line, for every message: the seeded accumulator (R130), the whole stripes in order, the leftover tagged and
added, the diffusion, and the digest, the first two words. -/
def Obligations.BulkWrittenOut : Prop :=
  ∀ (B : List Byte) (s0 s1 : Word),
    let n := B.length / 96
    let H := (List.range n).foldl (fun H j => mixStripe H (slice B (96 * j) (96 * j + 96)))
      #v[s0, s1, K, s0, s1, K, s0, s1, K, s0, s1, K]
    let T := B.drop (96 * n)
    let H := endBlock H (T ++ zeros (95 - T.length) ++ [BitVec.ofNat 8 T.length])
    T.length = B.length % 96 ∧ bulk B s0 s1 = (H.get 0, H.get 1)

/-! ### Invariants -/

/-- The state after reset meets the invariant, and `INITED` is 0 in its context (R35, R200); so it is in every configuration,
and in the states that a reset event leaves. -/
def Obligations.ResetMeetsTheInvariant : Prop :=
  Inv State.reset ∧ State.reset.inited = false ∧
  (∀ P : Params, Inv (State.resetAt P) ∧ (State.resetAt P).config = P ∧
    ∀ c ∈ (State.resetAt P).toContext :: (State.resetAt P).others, c.inited = false) ∧
  ∀ s : State, s.mem.wf s.config = true → Inv (resetBlock s)

/-- R31, R26, R27, with the canonical form of memory and in every context of the block: every step from a state that meets the
invariant, whatever the host does, leads to a state that meets it. -/
def Obligations.StepKeepsTheInvariant : Prop :=
  ∀ s t : State, Inv s → step s = .next t → Inv t

/-- R180, R188: from every state that meets the invariant, every step answers a next state, whatever the descriptor, the
message, the length and the seeds: no data and no command stops the machine. -/
def Obligations.StepNeverStops : Prop :=
  ∀ s : State, Inv s → ∃ t, step s = .next t
end

