-- ==== Sys2Proof/Laws/Params.lean ====
section
/-! SUPPORT. The default configuration, field by field, so that no later proof unfolds it; its tables of words against the
index formulas of spec/41 R101, spec/42 R111 and R112 and spec/43 R131; and what `lowBits` can do. -/

namespace Sys2Proof.Machine

@[simp] theorem params_K : params.K = K := rfl
@[simp] theorem params_shortMixRot : params.shortMixRot = shortMixRot := rfl
@[simp] theorem params_byteOrder : params.byteOrder = .little := rfl
@[simp] theorem params_rotDir : params.rotDir = .left := rfl
@[simp] theorem params_endWords : params.endWords = endWords := rfl
@[simp] theorem params_shortMixWords : params.shortMixWords = shortMixWords := rfl
@[simp] theorem params_shortEndWords : params.shortEndWords = shortEndWords := rfl
@[simp] theorem params_mixWords : params.mixWords = mixWords := rfl
@[simp] theorem params_beforeMix : params.beforeMix = (2, 3) := rfl
@[simp] theorem params_afterMix : params.afterMix = (0, 1) := rfl
@[simp] theorem params_tailWords : params.tailWords = (2, 3) := rfl
@[simp] theorem params_addressWidth : params.addressWidth.val = 64 := rfl
@[simp] theorem params_countWidth : params.countWidth.val = 64 := rfl
@[simp] theorem params_contexts : params.contexts = 1 := rfl

/-- The pattern of R101. -/
theorem endWords_get : ∀ j : Fin 12, endWords.get j = ⟨j + 11, j + 1, j + 2⟩ := by decide

/-- The pattern of R111. -/
theorem shortMixWords_get :
    ∀ j : Fin 12, shortMixWords.get j = ⟨Fin.ofNat 4 (j.val + 2), Fin.ofNat 4 (j.val + 3), Fin.ofNat 4 j.val⟩ := by decide

/-- The pattern of R112. -/
theorem shortEndWords_get :
    ∀ j : Fin 11, shortEndWords.get j = ⟨Fin.ofNat 4 (j.val + 3), Fin.ofNat 4 (j.val + 2)⟩ := by decide

/-- The pattern of R131. -/
theorem mixWords_get : ∀ i : Fin 12, mixWords.get i = ⟨i + 2, i + 10, i + 11, i + 1⟩ := by decide

/-- A field of at most 64 bits, as a number. -/
theorem lowBits_toNat (n : Fin 65) (w : Word) : (lowBits n w).toNat = w.toNat % 2 ^ n.val := by
  rw [lowBits, BitVec.toNat_ofNat, Nat.mod_eq_of_lt]
  exact (Nat.mod_lt _ (Nat.two_pow_pos _)).trans_le (Nat.pow_le_pow_right (by decide) (by omega))

theorem lowBits_lt (n : Fin 65) (w : Word) : (lowBits n w).toNat < 2 ^ n.val := by
  rw [lowBits_toNat]
  exact Nat.mod_lt _ (Nat.two_pow_pos _)

/-- A value that fits its field is what the field holds. -/
theorem lowBits_of_lt (n : Fin 65) (w : Word) (h : w.toNat < 2 ^ n.val) : lowBits n w = w := by
  apply BitVec.eq_of_toNat_eq
  rw [lowBits_toNat, Nat.mod_eq_of_lt h]

/-- At the default widths a field is the whole word. -/
@[simp] theorem lowBits_64 (w : Word) : lowBits 64 w = w := lowBits_of_lt 64 w w.isLt

/-- `le64` at the default byte order (R90). -/
theorem le64_little (B : List Byte) (o : Nat) :
    le64 B o = BitVec.ofNat 64
      (byteAt B o + byteAt B (o + 1) * 2 ^ 8 + byteAt B (o + 2) * 2 ^ 16 + byteAt B (o + 3) * 2 ^ 24
        + byteAt B (o + 4) * 2 ^ 32 + byteAt B (o + 5) * 2 ^ 40 + byteAt B (o + 6) * 2 ^ 48
        + byteAt B (o + 7) * 2 ^ 56) := rfl

/-- `rotl64` at the default direction (R92). -/
theorem rotl64_left (x : Word) (k : Nat) : rotl64 x k = (x <<< k) ||| (x >>> (64 - k)) := rfl

end Sys2Proof.Machine
end

