-- ==== Sys2Proof/Laws/Memory.lean ====
section
/-! SUPPORT. The message memory: the write keeps the canonical form; the bytes of a message; readable ranges. -/

namespace Sys2Proof.Machine

@[simp] theorem Memory.read_nil (a : Nat) : Memory.read [] a = Memory.background := rfl

@[simp] theorem Memory.read_cons (k : Nat) (v : Byte) (m : Memory) (a : Nat) :
    Memory.read ((k, v) :: m) a = if k = a then v else Memory.read m a := rfl

@[simp] theorem Memory.wf_nil (P : Params) : Memory.wf [] P = true := rfl

/-- The canonical form from `lo` on, as propositions. -/
theorem Memory.wfFrom_cons (lo k : Nat) (v : Byte) (m : Memory) (P : Params) :
    Memory.wfFrom lo ((k, v) :: m) P = true ↔
      lo ≤ k ∧ k < 2 ^ P.addressWidth.val ∧ v ≠ Memory.background ∧ Memory.wfFrom (k + 1) m P = true := by
  simp [Memory.wfFrom, and_assoc]

/-- A canonical memory is canonical from any lower address on. -/
theorem Memory.wfFrom_mono (lo lo' : Nat) (m : Memory) (P : Params) (h : lo' ≤ lo)
    (hm : Memory.wfFrom lo m P = true) : Memory.wfFrom lo' m P = true := by
  cases m with
  | nil => rfl
  | cons c m =>
    obtain ⟨k, v⟩ := c
    rw [Memory.wfFrom_cons] at *
    exact ⟨h.trans hm.1, hm.2⟩

/-- A write at or above `lo` keeps the canonical form from `lo` on. -/
theorem Memory.wfFrom_write (m : Memory) (P : Params) (lo a : Nat) (b : Byte) (hlo : lo ≤ a)
    (ha : a < 2 ^ P.addressWidth.val) (hm : Memory.wfFrom lo m P = true) : Memory.wfFrom lo (m.write a b) P = true := by
  induction m generalizing lo with
  | nil =>
    unfold Memory.write
    split
    · rfl
    · rename_i hb
      rw [Memory.wfFrom_cons]
      exact ⟨hlo, ha, hb, rfl⟩
  | cons c m ih =>
    obtain ⟨k, v⟩ := c
    have hk := (Memory.wfFrom_cons lo k v m P).mp hm
    unfold Memory.write
    split
    · rename_i hak
      split
      · exact hm
      · rename_i hb
        rw [Memory.wfFrom_cons, Memory.wfFrom_cons]
        exact ⟨hlo, ha, hb, hak, hk.2⟩
    · rename_i hak
      split
      · rename_i heq
        subst heq
        split
        · exact Memory.wfFrom_mono _ _ _ _ (by omega) hk.2.2.2
        · rename_i hb
          rw [Memory.wfFrom_cons]
          exact ⟨hlo, ha, hb, hk.2.2.2⟩
      · rename_i hne
        rw [Memory.wfFrom_cons]
        exact ⟨hk.1, hk.2.1, hk.2.2.1, ih (k + 1) (by omega) hk.2.2.2⟩

/-- The one operation that changes memory keeps its canonical form. -/
theorem Memory.wf_write (m : Memory) (P : Params) (a : Nat) (b : Byte) (ha : a < 2 ^ P.addressWidth.val)
    (hm : m.wf P = true) : (m.write a b).wf P = true := Memory.wfFrom_write m P 0 a b (Nat.zero_le a) ha hm

/-- The host's write keeps the canonical form. -/
theorem hostWrite_wf (a : Address) (v : Byte) (s : State) (hm : s.mem.wf s.config = true) :
    (hostWrite a v s).mem.wf s.config = true :=
  Memory.wf_write s.mem s.config _ v (lowBits_lt _ a) hm

@[simp] theorem Memory.bytes_zero (m : Memory) (a : Nat) : m.bytes a 0 = [] := rfl

theorem Memory.bytes_succ (m : Memory) (a n : Nat) : m.bytes a (n + 1) = m.read a :: m.bytes (a + 1) n := rfl

@[simp] theorem Memory.length_bytes (m : Memory) (a n : Nat) : (m.bytes a n).length = n := by
  induction n generalizing a with
  | zero => rfl
  | succ n ih => simp [Memory.bytes_succ, ih]

/-- Byte `i` of a message is the byte at its address. -/
theorem Memory.getElem?_bytes (m : Memory) (a n i : Nat) (hi : i < n) : (m.bytes a n)[i]? = some (m.read (a + i)) := by
  induction n generalizing a i with
  | zero => omega
  | succ n ih =>
    rw [Memory.bytes_succ]
    cases i with
    | zero => simp
    | succ i =>
      rw [List.getElem?_cons_succ, ih (a + 1) i (by omega)]
      congr 2
      omega

/-- Messages whose bytes agree are equal, wherever they lie. -/
theorem Memory.bytes_congr (m m' : Memory) (a a' n : Nat) (h : ∀ i, i < n → m.read (a + i) = m'.read (a' + i)) :
    m.bytes a n = m'.bytes a' n := by
  induction n generalizing a a' with
  | zero => rfl
  | succ n ih =>
    rw [Memory.bytes_succ, Memory.bytes_succ, ih (a + 1) (a' + 1)]
    · rw [show m.read a = m'.read a' from h 0 (by omega)]
    · intro i hi
      have := h (i + 1) (by omega)
      rwa [show a + (i + 1) = a + 1 + i by omega, show a' + (i + 1) = a' + 1 + i by omega] at this

/-- A range is readable exactly when each of its addresses is. -/
theorem State.rangeReadable_iff (s : State) (a n : Nat) :
    s.rangeReadable a n = true ↔ ∀ b, a ≤ b → b < a + n → s.readable b = true := by
  induction n generalizing a with
  | zero => simp [State.rangeReadable]; omega
  | succ n ih =>
    rw [State.rangeReadable, Bool.and_eq_true, ih]
    constructor
    · rintro ⟨h0, h⟩ b hab hb
      rcases Nat.eq_or_lt_of_le hab with rfl | hlt
      · exact h0
      · exact h b hlt (by omega)
    · intro h
      exact ⟨h a (Nat.le_refl a) (by omega), fun b hab hb => h b (by omega) (by omega)⟩

/-- Whether a range is readable depends on the platform's refused regions only. -/
theorem State.rangeReadable_congr (s t : State) (h : t.unreadable = s.unreadable) (a n : Nat) :
    t.rangeReadable a n = s.rangeReadable a n := by
  induction n generalizing a with
  | zero => rfl
  | succ n ih => simp only [State.rangeReadable, ih, State.readable, h]

end Sys2Proof.Machine
end

