-- ==== Sys2Proof/Laws/State.lean ====
section
/-! SUPPORT. Field lemmas: for each operation that updates the state, what it does to each field, so that no later proof
unfolds a record update. -/

namespace Sys2Proof.Machine

/-! ### `invalidate` -/

@[simp] theorem invalidate_acc (s : State) : (invalidate s).acc = Config.freeAcc s.draws := rfl
@[simp] theorem invalidate_carry (s : State) : (invalidate s).carry = Config.freeCarry s.draws := rfl
@[simp] theorem invalidate_clen (s : State) : (invalidate s).clen = Config.freeClen s.draws := rfl
@[simp] theorem invalidate_pcnt (s : State) : (invalidate s).pcnt = lowBits s.config.countWidth (Config.freePcnt s.draws) := rfl
@[simp] theorem invalidate_ovf (s : State) : (invalidate s).ovf = Config.freeOvf s.draws := rfl
@[simp] theorem invalidate_inited (s : State) : (invalidate s).inited = false := rfl
@[simp] theorem invalidate_mem (s : State) : (invalidate s).mem = s.mem := rfl
@[simp] theorem invalidate_config (s : State) : (invalidate s).config = s.config := rfl
@[simp] theorem invalidate_others (s : State) : (invalidate s).others = s.others := rfl
@[simp] theorem invalidate_unreadable (s : State) : (invalidate s).unreadable = s.unreadable := rfl
@[simp] theorem invalidate_inbox (s : State) : (invalidate s).inbox = s.inbox := rfl
@[simp] theorem invalidate_response (s : State) : (invalidate s).response = s.response := rfl
@[simp] theorem invalidate_draws (s : State) : (invalidate s).draws = s.draws + 1 := rfl

/-! ### `resetBlock` -/

@[simp] theorem resetBlock_inited (s : State) : (resetBlock s).inited = false := rfl
@[simp] theorem resetBlock_mem (s : State) : (resetBlock s).mem = s.mem := rfl
@[simp] theorem resetBlock_config (s : State) : (resetBlock s).config = s.config := rfl
@[simp] theorem resetBlock_others (s : State) :
    (resetBlock s).others = unspecifiedContexts s.config (s.config.contexts - 1) (s.draws + 1) := rfl
@[simp] theorem resetBlock_toContext (s : State) :
    (resetBlock s).toContext = Context.unspecified s.config s.draws := rfl
@[simp] theorem resetBlock_unreadable (s : State) : (resetBlock s).unreadable = s.unreadable := rfl
@[simp] theorem resetBlock_inbox (s : State) : (resetBlock s).inbox = s.inbox := rfl
@[simp] theorem resetBlock_response (s : State) : (resetBlock s).response = none := rfl

/-! ### `hostWrite` -/

@[simp] theorem hostWrite_acc (a : Address) (v : Byte) (s : State) : (hostWrite a v s).acc = s.acc := rfl
@[simp] theorem hostWrite_carry (a : Address) (v : Byte) (s : State) : (hostWrite a v s).carry = s.carry := rfl
@[simp] theorem hostWrite_clen (a : Address) (v : Byte) (s : State) : (hostWrite a v s).clen = s.clen := rfl
@[simp] theorem hostWrite_pcnt (a : Address) (v : Byte) (s : State) : (hostWrite a v s).pcnt = s.pcnt := rfl
@[simp] theorem hostWrite_ovf (a : Address) (v : Byte) (s : State) : (hostWrite a v s).ovf = s.ovf := rfl
@[simp] theorem hostWrite_inited (a : Address) (v : Byte) (s : State) : (hostWrite a v s).inited = s.inited := rfl
@[simp] theorem hostWrite_mem (a : Address) (v : Byte) (s : State) :
    (hostWrite a v s).mem = s.mem.write (lowBits s.config.addressWidth a).toNat v := rfl
@[simp] theorem hostWrite_config (a : Address) (v : Byte) (s : State) : (hostWrite a v s).config = s.config := rfl
@[simp] theorem hostWrite_others (a : Address) (v : Byte) (s : State) : (hostWrite a v s).others = s.others := rfl
@[simp] theorem hostWrite_unreadable (a : Address) (v : Byte) (s : State) :
    (hostWrite a v s).unreadable = s.unreadable := rfl
@[simp] theorem hostWrite_inbox (a : Address) (v : Byte) (s : State) : (hostWrite a v s).inbox = s.inbox := rfl
@[simp] theorem hostWrite_response (a : Address) (v : Byte) (s : State) : (hostWrite a v s).response = s.response := rfl

/-! ### `appendChunk` -/

@[simp] theorem appendChunk_acc (M : List Byte) (s : State) : (appendChunk M s).acc = s.acc := rfl
@[simp] theorem appendChunk_carry (M : List Byte) (s : State) :
    (appendChunk M s).carry = storeCarry s.carry s.clen.val M := rfl
@[simp] theorem appendChunk_clen (M : List Byte) (s : State) :
    (appendChunk M s).clen = Fin.ofNat 192 (s.clen.val + M.length) := rfl
@[simp] theorem appendChunk_pcnt (M : List Byte) (s : State) : (appendChunk M s).pcnt = s.pcnt := rfl
@[simp] theorem appendChunk_ovf (M : List Byte) (s : State) : (appendChunk M s).ovf = s.ovf := rfl
@[simp] theorem appendChunk_inited (M : List Byte) (s : State) : (appendChunk M s).inited = s.inited := rfl
@[simp] theorem appendChunk_mem (M : List Byte) (s : State) : (appendChunk M s).mem = s.mem := rfl
@[simp] theorem appendChunk_config (M : List Byte) (s : State) : (appendChunk M s).config = s.config := rfl
@[simp] theorem appendChunk_others (M : List Byte) (s : State) : (appendChunk M s).others = s.others := rfl
@[simp] theorem appendChunk_unreadable (M : List Byte) (s : State) :
    (appendChunk M s).unreadable = s.unreadable := rfl
@[simp] theorem appendChunk_inbox (M : List Byte) (s : State) : (appendChunk M s).inbox = s.inbox := rfl

/-! ### `foldStripe` and the fold loop -/

@[simp] theorem foldStripe_acc (X : List Byte) (s : State) : (foldStripe X s).acc = mixStripe s.acc X s.config := rfl
@[simp] theorem foldStripe_pcnt (X : List Byte) (s : State) : (foldStripe X s).pcnt = (add96 s.pcnt s.ovf s.config).1 := rfl
@[simp] theorem foldStripe_ovf (X : List Byte) (s : State) : (foldStripe X s).ovf = (add96 s.pcnt s.ovf s.config).2 := rfl
@[simp] theorem foldStripe_carry (X : List Byte) (s : State) : (foldStripe X s).carry = s.carry := rfl
@[simp] theorem foldStripe_clen (X : List Byte) (s : State) : (foldStripe X s).clen = s.clen := rfl
@[simp] theorem foldStripe_inited (X : List Byte) (s : State) : (foldStripe X s).inited = s.inited := rfl
@[simp] theorem foldStripe_mem (X : List Byte) (s : State) : (foldStripe X s).mem = s.mem := rfl
@[simp] theorem foldStripe_config (X : List Byte) (s : State) : (foldStripe X s).config = s.config := rfl
@[simp] theorem foldStripe_others (X : List Byte) (s : State) : (foldStripe X s).others = s.others := rfl
@[simp] theorem foldStripe_unreadable (X : List Byte) (s : State) : (foldStripe X s).unreadable = s.unreadable := rfl
@[simp] theorem foldStripe_inbox (X : List Byte) (s : State) : (foldStripe X s).inbox = s.inbox := rfl
@[simp] theorem foldStripe_response (X : List Byte) (s : State) : (foldStripe X s).response = s.response := rfl
@[simp] theorem foldStripe_draws (X : List Byte) (s : State) : (foldStripe X s).draws = s.draws := rfl

@[simp] theorem foldStripes_zero (S : List Byte) (s : State) : foldStripes 0 S s = s := rfl
theorem foldStripes_succ (n : Nat) (S : List Byte) (s : State) :
    foldStripes (n + 1) S s = foldStripes n (S.drop stripe) (foldStripe (S.take stripe) s) := rfl

/-- The frame of the fold loop: it touches `ACC`, `PCNT` and `OVF` only. -/
theorem foldStripes_frame (n : Nat) (S : List Byte) (s : State) :
    foldStripes n S s =
      { s with
        acc := (foldStripes n S s).acc, pcnt := (foldStripes n S s).pcnt, ovf := (foldStripes n S s).ovf } := by
  induction n generalizing S s with
  | zero => rfl
  | succ n ih => rw [foldStripes_succ, ih]; rfl

/-! ### `foldChunk` -/

/-- What `foldChunk` leaves in each field it writes, and its frame. -/
theorem foldChunk_frame (M : List Byte) (s : State) :
    foldChunk M s =
      { s with
        acc := (foldChunk M s).acc, pcnt := (foldChunk M s).pcnt, ovf := (foldChunk M s).ovf
        carry := (foldChunk M s).carry, clen := (foldChunk M s).clen, draws := s.draws + 1 } := by
  unfold foldChunk
  simp only
  rw [foldStripes_frame]

@[simp] theorem foldChunk_inited (M : List Byte) (s : State) : (foldChunk M s).inited = s.inited := by
  rw [foldChunk_frame]
@[simp] theorem foldChunk_mem (M : List Byte) (s : State) : (foldChunk M s).mem = s.mem := by
  rw [foldChunk_frame]
@[simp] theorem foldChunk_config (M : List Byte) (s : State) : (foldChunk M s).config = s.config := by
  rw [foldChunk_frame]
@[simp] theorem foldChunk_others (M : List Byte) (s : State) : (foldChunk M s).others = s.others := by
  rw [foldChunk_frame]
@[simp] theorem foldChunk_unreadable (M : List Byte) (s : State) : (foldChunk M s).unreadable = s.unreadable := by
  rw [foldChunk_frame]
@[simp] theorem foldChunk_inbox (M : List Byte) (s : State) : (foldChunk M s).inbox = s.inbox := by
  rw [foldChunk_frame]
@[simp] theorem foldChunk_draws (M : List Byte) (s : State) : (foldChunk M s).draws = s.draws + 1 := rfl
@[simp] theorem foldChunk_clen (M : List Byte) (s : State) :
    (foldChunk M s).clen = Fin.ofNat 192 ((s.carried ++ M).length % stripe) := rfl
@[simp] theorem foldChunk_carry (M : List Byte) (s : State) :
    (foldChunk M s).carry =
      storeCarry (Config.freeCarry s.draws) 0 ((s.carried ++ M).drop (stripe * ((s.carried ++ M).length / stripe))) := rfl

/-! ### Presenting a descriptor -/

/-- A command for context 0 is processed as it stands. -/
theorem processOn_zero (d : Descriptor) (s : State) : processOn 0 d s = processDescriptor d s := by
  simp only [processOn, Nat.zero_le, if_true, swapContext]
  cases processDescriptor d s <;> rfl


@[simp] theorem withFetchWord_inbox (s : State) (nbits w : Nat) :
    (s.withFetchWord nbits w).inbox = .command 0 (Descriptor.ofTableBits nbits w) :: s.inbox := rfl

/-- The step after a descriptor is presented processes it, in the state it was presented to. -/
theorem step_withFetchWord (s : State) (nbits w : Nat) :
    step (s.withFetchWord nbits w) = processDescriptor (Descriptor.ofTableBits nbits w) s := by
  change processOn 0 _ s = _
  rw [processOn_zero]

end Sys2Proof.Machine
end

