-- ==== Sys2Proof/Laws/Ops.lean ====
section
/-! SUPPORT. One lemma per shared operation that says everything it can do: taking a fault, fetching a message, the
one-shot commands, the carry store, the count. -/

namespace Sys2Proof.Machine

/-! ### Responses and faults -/

@[simp] theorem respond_eq (r : Response) (s : State) : respond r s = .next { s with response := some r } := rfl

@[simp] theorem raise_eq (f : CommandFault) (s : State) :
    raise f s = .next { s with response := some ⟨f.code, 0, 0⟩ } := rfl

/-! ### Message operands -/

theorem outOfRange_iff (ptr len : Word) (P : Params) : outOfRange ptr len P = true ↔ PassesTop P ptr len := by
  simp [outOfRange, PassesTop]

theorem rangeReadable_eq_false_iff (s : State) (ptr len : Word) :
    s.rangeReadable ptr.toNat len.toNat = false ↔ RefusedSomewhere s ptr len := by
  rw [← Bool.not_eq_true, State.rangeReadable_iff]
  simp [RefusedSomewhere]

/-- `fetchMessage` does one of three things, and says which. -/
theorem fetchMessage_cases (ptr len : Word) (s : State) :
    (PassesTop s.config ptr len ∧ fetchMessage ptr len s = .error .addressRange) ∨
    (¬ PassesTop s.config ptr len ∧ RefusedSomewhere s ptr len ∧ fetchMessage ptr len s = .error .memFault) ∨
    (CanRead s ptr len ∧ fetchMessage ptr len s = .ok (message s ptr len)) := by
  unfold fetchMessage CanRead
  by_cases h1 : PassesTop s.config ptr len
  · exact .inl ⟨h1, by rw [if_pos ((outOfRange_iff ptr len s.config).mpr h1)]⟩
  · have h1' : ¬ outOfRange ptr len s.config = true := fun h => h1 ((outOfRange_iff ptr len s.config).mp h)
    rw [if_neg h1']
    by_cases h2 : RefusedSomewhere s ptr len
    · exact .inr (.inl ⟨h1, h2, by rw [(rangeReadable_eq_false_iff s ptr len).mpr h2]; rfl⟩)
    · have h2' : s.rangeReadable ptr.toNat len.toNat = true := by
        rw [← Bool.not_eq_false]
        exact fun h => h2 ((rangeReadable_eq_false_iff s ptr len).mp h)
      exact .inr (.inr ⟨⟨h1, h2⟩, by rw [if_pos h2']; rfl⟩)

theorem fetchMessage_of_canRead (ptr len : Word) (s : State) (h : CanRead s ptr len) :
    fetchMessage ptr len s = .ok (message s ptr len) := by
  rcases fetchMessage_cases ptr len s with ⟨h1, _⟩ | ⟨_, h2, _⟩ | ⟨_, h3⟩
  · exact absurd h1 h.1
  · exact absurd h2 h.2
  · exact h3

@[simp] theorem message_length (s : State) (ptr len : Word) : (message s ptr len).length = len.toNat :=
  Memory.length_bytes _ _ _

/-- On a platform that refuses no address, a message inside the address space can be read. -/
theorem canRead_of_no_region (s : State) (ptr len : Word) (hs : s.unreadable = [])
    (h : outOfRange ptr len s.config = false) : CanRead s ptr len := by
  refine ⟨fun hp => ?_, fun ⟨a, _, _, ha⟩ => ?_⟩
  · rw [← outOfRange_iff, h] at hp
    exact Bool.noConfusion hp
  · simp [State.readable, hs] at ha

/-- A message of no bytes can always be read (R54). -/
theorem canRead_zero (s : State) (ptr : Word) : CanRead s ptr 0 :=
  ⟨fun h => h.1 rfl, fun ⟨a, h1, h2, _⟩ => by simp at h2; omega⟩

/-- Everything a one-shot command can do: it answers a response and changes nothing else. -/
theorem oneShot_cases (ptr len : Word) (answer : List Byte → Response) (s : State) :
    (PassesTop s.config ptr len ∧ oneShot ptr len answer s = .next { s with response := some ⟨3, 0, 0⟩ }) ∨
    (¬ PassesTop s.config ptr len ∧ RefusedSomewhere s ptr len ∧
      oneShot ptr len answer s = .next { s with response := some ⟨4, 0, 0⟩ }) ∨
    (CanRead s ptr len ∧
      oneShot ptr len answer s = .next { s with response := some (answer (message s ptr len)) }) := by
  unfold oneShot
  rcases fetchMessage_cases ptr len s with ⟨h1, h⟩ | ⟨h1, h2, h⟩ | ⟨h1, h⟩ <;> rw [h]
  · exact .inl ⟨h1, rfl⟩
  · exact .inr (.inl ⟨h1, h2, rfl⟩)
  · exact .inr (.inr ⟨h1, rfl⟩)

/-! ### The carry buffer -/

theorem storeCarry_get (C : Vector Byte 192) (off : Nat) (bs : List Byte) (k : Fin 192) :
    (storeCarry C off bs).get k = if off ≤ k.val then bs.getD (k.val - off) (C.get k) else C.get k := by
  unfold storeCarry
  rw [Vector.get_eq_getElem, Vector.getElem_ofFn]

/-- The carried bytes number `CLEN`. -/
@[simp] theorem carried_length (s : Context) : s.carried.length = s.clen.val := by
  have := s.clen.isLt
  rw [Context.carried, List.length_take, Vector.length_toList]
  omega

/-- A carry buffer's first `off + |bs|` bytes after a store of `bs` at `off`. -/
theorem take_storeCarry (C : Vector Byte 192) (off : Nat) (bs : List Byte) (h : off + bs.length ≤ 192) :
    (storeCarry C off bs).toList.take (off + bs.length) = C.toList.take off ++ bs := by
  apply List.ext_getElem?
  intro k
  by_cases hk : k < off + bs.length
  · have hk192 : k < 192 := by omega
    rw [List.getElem?_take_of_lt hk]
    have hget : (storeCarry C off bs).toList[k]? = some ((storeCarry C off bs).get ⟨k, hk192⟩) := by
      rw [List.getElem?_eq_getElem (by simpa using hk192)]
      simp [Vector.get]
    rw [hget, storeCarry_get]
    by_cases ho : off ≤ k
    · rw [if_pos ho, List.getElem?_append_right (by simp; omega)]
      have : (List.take off C.toList).length = off := by simp; omega
      rw [this, List.getD_eq_getElem?_getD, List.getElem?_eq_getElem (by omega : k - off < bs.length)]
      rfl
    · rw [if_neg ho, List.getElem?_append_left (by simp; omega), List.getElem?_take_of_lt (by omega),
        List.getElem?_eq_getElem (by simpa using hk192)]
      simp [Vector.get]
  · rw [List.getElem?_eq_none (by simp; omega), List.getElem?_eq_none (by simp; omega)]

/-! ### The count -/

theorem add96_fst (p : Word) (v : Bool) (P : Params) :
    (add96 p v P).1.toNat = (p.toNat + 96) % 2 ^ P.countWidth.val := by
  change (BitVec.ofNat 64 ((p.toNat + 96) % 2 ^ P.countWidth.val)).toNat = _
  rw [BitVec.toNat_ofNat, Nat.mod_eq_of_lt]
  exact (Nat.mod_lt _ (Nat.two_pow_pos _)).trans_le (Nat.pow_le_pow_right (by decide) (by omega))

theorem add96_snd (p : Word) (v : Bool) (P : Params) :
    (add96 p v P).2 = true ↔ v = true ∨ 2 ^ P.countWidth.val ≤ p.toNat + 96 := by
  change (if 2 ^ P.countWidth.val ≤ p.toNat + 96 then true else v) = true ↔ _
  by_cases h : 2 ^ P.countWidth.val ≤ p.toNat + 96
  · rw [if_pos h]
    exact ⟨fun _ => .inr h, fun _ => rfl⟩
  · rw [if_neg h]
    exact ⟨.inl, fun hv => hv.resolve_right h⟩

/-! ### Large and Small -/

theorem isLarge_iff (s : Context) : s.large = true ↔ s.ovf = true ∨ s.pcnt ≠ 0 := by simp [Context.large]

theorem isSmall_iff (s : Context) : s.small = true ↔ s.ovf = false ∧ s.pcnt = 0 := by
  simp [Context.small, Context.large]

theorem small_iff_not_large (s : Context) : s.small = true ↔ ¬ s.large = true := by simp [Context.small]

end Sys2Proof.Machine
end

