-- ==== Sys2Proof/Laws/Streaming.lean ====
section
/-! SUPPORT. What UPDATE and FINALIZE can do, said once: the carry after an append and after a fold, the accumulator after the
fold loop, and one inversion lemma per command. -/

namespace Sys2Proof.Machine

/-- The carried bytes after an append (R143). -/
theorem carried_appendChunk (M : List Byte) (s : State) (h : s.clen.val + M.length < 192) :
    (appendChunk M s).carried = s.carried ++ M := by
  have hlen : (Fin.ofNat 192 (s.clen.val + M.length)).val = s.clen.val + M.length := by
    rw [Fin.val_ofNat, Nat.mod_eq_of_lt h]
  rw [Context.carried, appendChunk_clen, appendChunk_carry, hlen, take_storeCarry _ _ _ (by omega)]
  rfl

/-- `CLEN` after an append (R143). -/
theorem clen_appendChunk (M : List Byte) (s : State) (h : s.clen.val + M.length < 192) :
    (appendChunk M s).clen.val = s.clen.val + M.length := by
  rw [appendChunk_clen, Fin.val_ofNat, Nat.mod_eq_of_lt h]

/-- `CLEN` after a fold (R144): the total modulo the stripe. -/
theorem clen_foldChunk (M : List Byte) (s : State) :
    (foldChunk M s).clen.val = (s.clen.val + M.length) % 96 := by
  rw [foldChunk_clen, Fin.val_ofNat, List.length_append, carried_length, Nat.mod_eq_of_lt]
  exact (Nat.mod_lt _ (by decide)).trans (by decide)

/-- The carried bytes after a fold (R144, R146): what follows the last whole stripe, in order. -/
theorem carried_foldChunk (M : List Byte) (s : State) :
    (foldChunk M s).carried = (s.carried ++ M).drop (96 * ((s.carried ++ M).length / 96)) := by
  have hlen : ((s.carried ++ M).drop (stripe * ((s.carried ++ M).length / stripe))).length =
      (foldChunk M s).clen.val := by
    rw [clen_foldChunk, List.length_drop, List.length_append, carried_length]
    simp only [stripe]
    omega
  have h192 := (foldChunk M s).clen.isLt
  rw [Context.carried, foldChunk_carry, ← hlen, ← Nat.zero_add (List.length _), take_storeCarry _ _ _ (by omega)]
  rfl

/-- The accumulator after the fold loop is that of `Absorb` (R144, R134). -/
theorem foldStripes_acc (n : Nat) (S : List Byte) (s : State) :
    (foldStripes n S s).acc = absorbStripes n s.acc S s.config := by
  induction n generalizing S s with
  | zero => rfl
  | succ n ih => rw [foldStripes_succ, ih, foldStripe_acc]; rfl

theorem foldChunk_acc (M : List Byte) (s : State) :
    (foldChunk M s).acc = absorbStripes ((s.carried ++ M).length / 96) s.acc (s.carried ++ M) s.config :=
  foldStripes_acc _ _ _

theorem foldChunk_pcnt (M : List Byte) (s : State) :
    (foldChunk M s).pcnt = (foldStripes ((s.carried ++ M).length / 96) (s.carried ++ M) s).pcnt := rfl

theorem foldChunk_ovf (M : List Byte) (s : State) :
    (foldChunk M s).ovf = (foldStripes ((s.carried ++ M).length / 96) (s.carried ++ M) s).ovf := rfl

/-- `absorbChunk` appends or folds, and says when (R147). -/
theorem absorbChunk_cases (M : List Byte) (s : State) :
    (s.small = true ∧ s.clen.val + M.length < 192 ∧ absorbChunk M s = appendChunk M s) ∨
    ((s.large = true ∨ 192 ≤ s.clen.val + M.length) ∧ absorbChunk M s = foldChunk M s) := by
  unfold absorbChunk
  by_cases h1 : s.small = true
  · by_cases h2 : s.clen.val + M.length < 192
    · exact .inl ⟨h1, h2, by simp [h1, h2]⟩
    · exact .inr ⟨.inr (by omega), by simp [h1, h2]⟩
  · refine .inr ⟨.inl ?_, by simp [h1]⟩
    by_contra h
    exact h1 ((small_iff_not_large s.toContext).mpr h)

/-- The fields UPDATE never writes are kept by `absorbChunk`. -/
@[simp] theorem absorbChunk_inited (M : List Byte) (s : State) : (absorbChunk M s).inited = s.inited := by
  rcases absorbChunk_cases M s with ⟨_, _, h⟩ | ⟨_, h⟩ <;> simp [h]
@[simp] theorem absorbChunk_mem (M : List Byte) (s : State) : (absorbChunk M s).mem = s.mem := by
  rcases absorbChunk_cases M s with ⟨_, _, h⟩ | ⟨_, h⟩ <;> simp [h]
@[simp] theorem absorbChunk_config (M : List Byte) (s : State) : (absorbChunk M s).config = s.config := by
  rcases absorbChunk_cases M s with ⟨_, _, h⟩ | ⟨_, h⟩ <;> simp [h]
@[simp] theorem absorbChunk_others (M : List Byte) (s : State) : (absorbChunk M s).others = s.others := by
  rcases absorbChunk_cases M s with ⟨_, _, h⟩ | ⟨_, h⟩ <;> simp [h]
@[simp] theorem absorbChunk_unreadable (M : List Byte) (s : State) :
    (absorbChunk M s).unreadable = s.unreadable := by
  rcases absorbChunk_cases M s with ⟨_, _, h⟩ | ⟨_, h⟩ <;> simp [h]
@[simp] theorem absorbChunk_inbox (M : List Byte) (s : State) : (absorbChunk M s).inbox = s.inbox := by
  rcases absorbChunk_cases M s with ⟨_, _, h⟩ | ⟨_, h⟩ <;> simp [h]

/-- The fold loop neither reads nor writes what lies outside the context. -/
theorem foldStripes_outside (n : Nat) (S : List Byte) (s : State) (o : List Context) (m : Memory)
    (b : List HostEvent) (r : Option Response) :
    foldStripes n S { s with others := o, mem := m, inbox := b, response := r } =
      { foldStripes n S s with others := o, mem := m, inbox := b, response := r } := by
  induction n generalizing S s with
  | zero => rfl
  | succ n ih => exact ih _ (foldStripe (S.take stripe) s)

/-- UPDATE's effect on the context neither reads nor writes what lies outside it. -/
theorem absorbChunk_outside (M : List Byte) (s : State) (o : List Context) (m : Memory) (b : List HostEvent)
    (r : Option Response) :
    absorbChunk M { s with others := o, mem := m, inbox := b, response := r } =
      { absorbChunk M s with others := o, mem := m, inbox := b, response := r } := by
  have hsmall : ({ s with others := o, mem := m, inbox := b, response := r } : State).small = s.small := rfl
  unfold absorbChunk
  rw [hsmall]
  by_cases h : (s.small && decide (s.clen.val + M.length < thresh)) = true
  · rw [if_pos h, if_pos h]; rfl
  · rw [if_neg h, if_neg h]
    unfold foldChunk
    simp only [foldStripes_outside]

/-- Everything UPDATE can do (R147): it always answers, in one of five ways. -/
theorem execUpdate_cases (ptr len : Word) (s : State) :
    (s.inited = false ∧ execUpdate ptr len s = .next { s with response := some ⟨2, 0, 0⟩ }) ∨
    (s.inited = true ∧ len = 0 ∧ execUpdate ptr len s = .next { s with response := some ⟨0, 0, 0⟩ }) ∨
    (s.inited = true ∧ PassesTop s.config ptr len ∧ execUpdate ptr len s = .next { s with response := some ⟨3, 0, 0⟩ }) ∨
    (s.inited = true ∧ ¬ PassesTop s.config ptr len ∧ RefusedSomewhere s ptr len ∧
      execUpdate ptr len s = .next { invalidate s with response := some ⟨4, 0, 0⟩ }) ∨
    (s.inited = true ∧ len ≠ 0 ∧ CanRead s ptr len ∧
      execUpdate ptr len s = .next { absorbChunk (message s ptr len) s with response := some ⟨0, 0, 0⟩ }) := by
  unfold execUpdate
  by_cases hi : s.inited = false
  · exact .inl ⟨hi, by rw [if_pos hi]; rfl⟩
  · have hi' : s.inited = true := by simpa using hi
    by_cases h0 : len = 0
    · exact .inr (.inl ⟨hi', h0, by rw [if_neg hi, if_pos h0]; rfl⟩)
    · rw [if_neg hi, if_neg h0]
      rcases fetchMessage_cases ptr len s with ⟨h1, h⟩ | ⟨h1, h2, h⟩ | ⟨h1, h⟩ <;> rw [h]
      · exact .inr (.inr (.inl ⟨hi', h1, rfl⟩))
      · exact .inr (.inr (.inr (.inl ⟨hi', h1, h2, rfl⟩)))
      · exact .inr (.inr (.inr (.inr ⟨hi', h0, h1, rfl⟩)))

/-- Everything FINALIZE can do (R149): the fault, the two paths, and the refusal outside the invariant. -/
theorem execFinalize_cases (s : State) :
    (s.inited = false ∧ execFinalize s = .next { s with response := some ⟨2, 0, 0⟩ }) ∨
    (s.inited = true ∧ s.small = true ∧
      execFinalize s = .next { s with
        response := some ⟨0, (short s.carried (s.acc.get 0) (s.acc.get 1) s.config).1,
          (short s.carried (s.acc.get 0) (s.acc.get 1) s.config).2⟩ }) ∨
    (s.inited = true ∧ s.large = true ∧ s.clen.val < 96 ∧
      execFinalize s = .next { s with response := some ⟨0, (largeDigest s).1, (largeDigest s).2⟩ }) ∨
    (s.inited = true ∧ s.large = true ∧ 96 ≤ s.clen.val ∧
      execFinalize s = .refused .finalizeCarryPastStripe) := by
  unfold execFinalize
  by_cases hi : s.inited = false
  · exact .inl ⟨hi, by rw [if_pos hi]; rfl⟩
  · have hi' : s.inited = true := by simpa using hi
    rw [if_neg hi]
    by_cases hs : s.small = true
    · have h := (isSmall_iff s.toContext).mp hs
      have hc : s.ovf = false ∧ s.pcnt = 0 ∧ s.pcnt.toNat + s.clen.val < thresh := by
        refine ⟨h.1, h.2, ?_⟩
        have := s.clen.isLt
        simp [h.2, thresh]
      exact .inr (.inl ⟨hi', hs, by rw [if_pos hc]; rfl⟩)
    · have hc : ¬ (s.ovf = false ∧ s.pcnt = 0 ∧ s.pcnt.toNat + s.clen.val < thresh) :=
        fun h => hs ((isSmall_iff s.toContext).mpr ⟨h.1, h.2.1⟩)
      have hl : s.large = true := by
        by_contra h
        exact hs ((small_iff_not_large s.toContext).mpr h)
      rw [if_neg hc]
      by_cases h96 : s.clen.val < 96
      · exact .inr (.inr (.inl ⟨hi', hl, h96, by rw [if_pos (show s.clen.val < stripe from h96)]; rfl⟩))
      · exact .inr (.inr (.inr ⟨hi', hl, by omega, by rw [if_neg (show ¬ s.clen.val < stripe from h96)]⟩))

end Sys2Proof.Machine
end

