-- ==== Sys2Proof/Laws/OneShot.lean ====
section
/-! SUPPORT. The one-shot commands as one shape: whatever HASH128, HASH64 or HASH32 it is, it answers one of three responses,
which depend on the message memory and the readable addresses only. -/

namespace Sys2Proof.Machine

/-- A command that is neither INIT nor one that needs the context is a one-shot command over its message operand, whose
answer has code 0 and depends on the configuration and the message. -/
theorem exec_eq_oneShot (i : Instr) (hinit : ∀ a b, i ≠ .init a b) (hctx : ¬ NeedsContext i) :
    ∃ (ptr len : Word) (answer : Params → List Byte → Response), messageOperand i = some (ptr, len) ∧
      (∀ P M, (answer P M).r0 = 0) ∧
      ∀ s, exec i s = oneShot ptr len (answer s.config) s := by
  cases i with
  | init a b => exact absurd rfl (hinit a b)
  | update p n => exact absurd (.inr ⟨p, n, rfl⟩) hctx
  | finalize => exact absurd (.inl rfl) hctx
  | hash128 a b p n => exact ⟨p, n, fun P M => ⟨0, (hash128 M a b P).1, (hash128 M a b P).2⟩, rfl, fun _ _ => rfl, fun _ => rfl⟩
  | hash64 a p n => exact ⟨p, n, fun P M => ⟨0, (hash128 M a a P).1, 0⟩, rfl, fun _ _ => rfl, fun _ => rfl⟩
  | hash32 a p n =>
    exact ⟨p, n, fun P M => ⟨0, lowHalf (hash128 M (widenSeed a) (widenSeed a) P).1, 0⟩, rfl, fun _ _ => rfl, fun _ => rfl⟩

/-- INIT answers always, and in one way (R141). -/
theorem execInit_eq (seed0 seed1 : Word) (s : State) :
    execInit seed0 seed1 s =
      .next { s with
        acc := seedAcc seed0 seed1 s.config, pcnt := 0, clen := 0, ovf := false, inited := true
        response := some ⟨0, 0, 0⟩ } := rfl

end Sys2Proof.Machine
end

