-- ==== Sys2Proof/Laws/Exec.lean ====
section
/-! SUPPORT. What a command can do when it answers a next state, said once for all six. -/

namespace Sys2Proof.Machine

/-- Everything a command can do when it answers: INIT's effect; the three faults that change nothing; UPDATE's refused read;
a one-shot digest; the two effects of UPDATE; FINALIZE's digest. Each case says which command it is and when. -/
theorem exec_next_cases (i : Instr) (s t : State) (h : exec i s = .next t) :
    (∃ a b, i = .init a b ∧
      t = { s with
        acc := seedAcc a b s.config, pcnt := 0, clen := 0, ovf := false, inited := true, response := some ⟨0, 0, 0⟩ }) ∨
    (NeedsContext i ∧ s.inited = false ∧ t = { s with response := some ⟨2, 0, 0⟩ }) ∨
    (∃ p n, messageOperand i = some (p, n) ∧ (NeedsContext i → s.inited = true) ∧ PassesTop s.config p n ∧
      t = { s with response := some ⟨3, 0, 0⟩ }) ∨
    (∃ p n, messageOperand i = some (p, n) ∧ ¬ NeedsContext i ∧ (∀ a b, i ≠ .init a b) ∧ ¬ PassesTop s.config p n ∧
      RefusedSomewhere s p n ∧ t = { s with response := some ⟨4, 0, 0⟩ }) ∨
    (∃ p n, i = .update p n ∧ s.inited = true ∧ ¬ PassesTop s.config p n ∧ RefusedSomewhere s p n ∧
      t = { invalidate s with response := some ⟨4, 0, 0⟩ }) ∨
    (∃ p n, messageOperand i = some (p, n) ∧ ¬ NeedsContext i ∧ (∀ a b, i ≠ .init a b) ∧ CanRead s p n ∧
      ∃ r : Response, r.r0 = 0 ∧ t = { s with response := some r }) ∨
    (∃ p, i = .update p 0 ∧ s.inited = true ∧ t = { s with response := some ⟨0, 0, 0⟩ }) ∨
    (∃ p n, i = .update p n ∧ s.inited = true ∧ n ≠ 0 ∧ CanRead s p n ∧
      t = { absorbChunk (message s p n) s with response := some ⟨0, 0, 0⟩ }) ∨
    (i = .finalize ∧ s.inited = true ∧ ∃ r : Response, r.r0 = 0 ∧ t = { s with response := some r }) := by
  by_cases hi : ∃ a b, i = .init a b
  · obtain ⟨a, b, rfl⟩ := hi
    cases h
    exact .inl ⟨a, b, rfl, rfl⟩
  have hi' : ∀ a b, i ≠ .init a b := fun a b hh => hi ⟨a, b, hh⟩
  right
  by_cases hc : NeedsContext i
  · rcases id hc with rfl | ⟨p, n, rfl⟩
    · rcases execFinalize_cases s with ⟨a, e⟩ | ⟨a, b, e⟩ | ⟨a, b, c, e⟩ | ⟨a, b, c, e⟩ <;> rw [exec, e] at h <;> cases h
      · exact .inl ⟨hc, a, rfl⟩
      · exact .inr <| .inr <| .inr <| .inr <| .inr <| .inr <| .inr ⟨rfl, a, _, rfl, rfl⟩
      · exact .inr <| .inr <| .inr <| .inr <| .inr <| .inr <| .inr ⟨rfl, a, _, rfl, rfl⟩
    · rcases execUpdate_cases p n s with ⟨a, e⟩ | ⟨a, b, e⟩ | ⟨a, b, e⟩ | ⟨a, b, c, e⟩ | ⟨a, b, c, e⟩ <;> rw [exec, e] at h <;> cases h
      · exact .inl ⟨hc, a, rfl⟩
      · subst b; exact .inr <| .inr <| .inr <| .inr <| .inr <| .inl ⟨p, rfl, a, rfl⟩
      · exact .inr <| .inl ⟨p, n, rfl, fun _ => a, b, rfl⟩
      · exact .inr <| .inr <| .inr <| .inl ⟨p, n, rfl, a, b, c, rfl⟩
      · exact .inr <| .inr <| .inr <| .inr <| .inr <| .inr <| .inl ⟨p, n, rfl, a, b, c, rfl⟩
  · obtain ⟨p, n, ans, hm, h0, hx⟩ := exec_eq_oneShot i hi' hc
    rw [hx] at h
    rcases oneShot_cases p n (ans s.config) s with ⟨a, e⟩ | ⟨a, b, e⟩ | ⟨a, e⟩ <;> rw [e] at h <;> cases h
    · exact .inr <| .inl ⟨p, n, hm, fun x => absurd x hc, a, rfl⟩
    · exact .inr <| .inr <| .inl ⟨p, n, hm, hc, hi', a, b, rfl⟩
    · exact .inr <| .inr <| .inr <| .inr <| .inl ⟨p, n, hm, hc, hi', a, _, h0 _ _, rfl⟩

end Sys2Proof.Machine
end

