-- ==== Sys2Proof/Laws/Contexts.lean ====
section
/-! SUPPORT. The contexts of a block: what the exchange of contexts does, what a command on a context can do, and that with
one context both are nothing new. -/

namespace Sys2Proof.Machine

@[simp] theorem swapContext_zero (s : State) : swapContext 0 s = s := rfl

/-- The exchange, where the block has the context. -/
theorem swapContext_succ (j : Nat) (s : State) (c : Context) (h : s.others[j]? = some c) :
    swapContext (j + 1) s = { s with toContext := c, others := s.others.set j s.toContext } := by
  simp only [swapContext, h]

/-- The exchange, where it has not. -/
theorem swapContext_none (j : Nat) (s : State) (h : s.others[j]? = none) : swapContext (j + 1) s = s := by
  simp only [swapContext, h]

/-- The exchange touches the contexts only. -/
theorem swapContext_frame (k : Nat) (s : State) :
    swapContext k s = { s with toContext := (swapContext k s).toContext, others := (swapContext k s).others } := by
  cases k with
  | zero => rfl
  | succ j =>
    cases h : s.others[j]? with
    | none => rw [swapContext_none j s h]
    | some c => rw [swapContext_succ j s c h]

@[simp] theorem swapContext_config (k : Nat) (s : State) : (swapContext k s).config = s.config := by
  rw [swapContext_frame]
@[simp] theorem swapContext_mem (k : Nat) (s : State) : (swapContext k s).mem = s.mem := by
  rw [swapContext_frame]
@[simp] theorem swapContext_unreadable (k : Nat) (s : State) : (swapContext k s).unreadable = s.unreadable := by
  rw [swapContext_frame]
@[simp] theorem swapContext_inbox (k : Nat) (s : State) : (swapContext k s).inbox = s.inbox := by
  rw [swapContext_frame]
@[simp] theorem swapContext_response (k : Nat) (s : State) : (swapContext k s).response = s.response := by
  rw [swapContext_frame]
@[simp] theorem swapContext_draws (k : Nat) (s : State) : (swapContext k s).draws = s.draws := by
  rw [swapContext_frame]

@[simp] theorem swapContext_length (k : Nat) (s : State) : (swapContext k s).others.length = s.others.length := by
  cases k with
  | zero => rfl
  | succ j =>
    cases h : s.others[j]? with
    | none => rw [swapContext_none j s h]
    | some c => rw [swapContext_succ j s c h]; exact List.length_set

/-- The same exchange again puts both contexts back. -/
@[simp] theorem swapContext_swapContext (k : Nat) (s : State) : swapContext k (swapContext k s) = s := by
  cases k with
  | zero => rfl
  | succ j =>
    cases h : s.others[j]? with
    | none => rw [swapContext_none j s h, swapContext_none j s h]
    | some c =>
      have hj : j < s.others.length := (List.getElem?_eq_some_iff.mp h).1
      have hc : s.others[j] = c := (List.getElem?_eq_some_iff.mp h).2
      rw [swapContext_succ j s c h, swapContext_succ j _ s.toContext (by simp [hj])]
      simp [← hc]

@[simp] theorem contextAt_zero (s : State) : s.contextAt 0 = some s.toContext := rfl
@[simp] theorem contextAt_succ (s : State) (j : Nat) : s.contextAt (j + 1) = s.others[j]? := rfl

/-- The exchange brings context `k` to number 0. -/
theorem swapContext_toContext (k : Nat) (s : State) (hk : k ≤ s.others.length) :
    some (swapContext k s).toContext = s.contextAt k := by
  cases k with
  | zero => rfl
  | succ j =>
    have h := List.getElem?_eq_getElem (show j < s.others.length by omega)
    rw [swapContext_succ j s _ h, contextAt_succ, h]

/-- What the other numbers name after context `k` is replaced and put back: what they named before. -/
theorem contextAt_replaced (k j : Nat) (s : State) (c : Context) (hk : k ≤ s.others.length) :
    (swapContext k { swapContext k s with toContext := c }).contextAt j = if j = k then some c else s.contextAt j := by
  cases k with
  | zero =>
    cases j with
    | zero => rfl
    | succ j => simp
  | succ i =>
    have hi : i < s.others.length := by omega
    have h := List.getElem?_eq_getElem hi
    rw [swapContext_succ i s _ h, swapContext_succ i _ s.toContext (by simp [hi])]
    cases j with
    | zero => simp
    | succ j =>
      simp only [contextAt_succ, List.set_set]
      by_cases hj : j = i
      · subst hj; simp [hi]
      · simp [hj, List.getElem?_set_ne (Ne.symm hj)]

/-- Everything that is neither the command's context nor the response nor the counter of free values is as before (R36, R51,
R192): the frame of a command. -/
theorem exec_frame (i : Instr) (s t : State) (h : exec i s = .next t) :
    t.config = s.config ∧ t.others = s.others ∧ t.mem = s.mem ∧ t.unreadable = s.unreadable ∧ t.inbox = s.inbox := by
  rcases exec_next_cases i s t h with ⟨_, _, _, rfl⟩ | ⟨_, _, rfl⟩ | ⟨_, _, _, _, _, rfl⟩ | ⟨_, _, _, _, _, _, _, rfl⟩ |
    ⟨_, _, _, _, _, _, rfl⟩ | ⟨_, _, _, _, _, _, _, _, rfl⟩ | ⟨_, _, _, rfl⟩ | ⟨_, _, _, _, _, _, rfl⟩ |
    ⟨_, _, _, _, rfl⟩ <;> simp

/-- Processing a descriptor keeps the same frame. -/
theorem processDescriptor_frame (d : Descriptor) (s t : State) (h : processDescriptor d s = .next t) :
    t.config = s.config ∧ t.others = s.others ∧ t.mem = s.mem ∧ t.unreadable = s.unreadable ∧ t.inbox = s.inbox := by
  unfold processDescriptor at h
  split at h
  · cases h; simp
  · exact exec_frame _ _ _ h

/-- A command for a number without a context (log entry 16). -/
theorem processOn_absent (k : Nat) (d : Descriptor) (s : State) (hk : s.others.length < k) :
    processOn k d s = .next { s with response := some ⟨1, 0, 0⟩ } := by
  rw [processOn, if_neg (by omega)]
  rfl

/-- A command for a context of the block answers as it does with that context in place. -/
theorem processOn_next (k : Nat) (d : Descriptor) (s u : State) (hk : k ≤ s.others.length)
    (h : processDescriptor d (swapContext k s) = .next u) : processOn k d s = .next (swapContext k u) := by
  rw [processOn, if_pos hk, h]

/-- Every next state of a command for a context comes from the command with that context in place. -/
theorem processOn_next_cases (k : Nat) (d : Descriptor) (s t : State) (h : processOn k d s = .next t) :
    (s.others.length < k ∧ t = { s with response := some ⟨1, 0, 0⟩ }) ∨
    (k ≤ s.others.length ∧ ∃ u, processDescriptor d (swapContext k s) = .next u ∧ t = swapContext k u) := by
  by_cases hk : k ≤ s.others.length
  · refine .inr ⟨hk, ?_⟩
    rw [processOn, if_pos hk] at h
    cases hu : processDescriptor d (swapContext k s) with
    | next u => rw [hu] at h; exact ⟨u, rfl, by cases h; rfl⟩
    | fault f => rw [hu] at h; cases h
    | refused r => rw [hu] at h; cases h
  · rw [processOn_absent k d s (by omega)] at h
    exact .inl ⟨by omega, by cases h; rfl⟩

/-- A command on one context leaves the others, the configuration and the memory (R36, R51, R192). -/
theorem processOn_sameOutside (k : Nat) (d : Descriptor) (s t : State) (h : processOn k d s = .next t) :
    SameOutside k s t := by
  rcases processOn_next_cases k d s t h with ⟨_, rfl⟩ | ⟨hk, u, hu, rfl⟩
  · exact ⟨rfl, rfl, fun _ _ => rfl, rfl, rfl, rfl⟩
  · obtain ⟨h1, h2, h3, h4, h5⟩ := processDescriptor_frame _ _ _ hu
    refine ⟨by simp [h1], by simp [h2], fun j hj => ?_, by simp [h3], by simp [h4], by simp [h5]⟩
    have hctx : ∀ (v w : State), v.others = w.others → v.toContext = w.toContext →
        (swapContext k v).contextAt j = (swapContext k w).contextAt j := by
      intro v w ho hc
      cases k with
      | zero => simp only [swapContext_zero, State.contextAt, ho, hc]
      | succ i =>
        cases hi : w.others[i]? with
        | none => rw [swapContext_none i w hi, swapContext_none i v (by rw [ho, hi]), State.contextAt, State.contextAt, ho, hc]
        | some c =>
          rw [swapContext_succ i w c hi, swapContext_succ i v c (by rw [ho, hi]), State.contextAt, State.contextAt]
          simp only [ho, hc]
    rw [hctx u { swapContext k s with toContext := u.toContext } h2 rfl, contextAt_replaced k j s _ hk, if_neg hj]


/-- Fetching a message reads no context, no event and no response. -/
theorem fetchMessage_outside (ptr len : Word) (s : State) (c : Context) (o : List Context) (b : List HostEvent)
    (r : Option Response) :
    fetchMessage ptr len { s with toContext := c, others := o, inbox := b, response := r } = fetchMessage ptr len s := by
  unfold fetchMessage
  rw [State.rangeReadable_congr s { s with toContext := c, others := o, inbox := b, response := r } rfl]

/-- A command neither reads nor writes the other contexts and the pending events, and does not read the response (R36, R192,
R188). -/
theorem exec_outside (i : Instr) (s t : State) (o : List Context) (b : List HostEvent) (r : Option Response)
    (h : exec i s = .next t) :
    exec i { s with others := o, inbox := b, response := r } = .next { t with others := o, inbox := b } := by
  have hf := fun p n => fetchMessage_outside p n s s.toContext o b r
  cases i with
  | init a c => cases h; rfl
  | update p n =>
    simp only [exec, execUpdate, hf] at h ⊢
    by_cases hi : s.inited = false
    · rw [if_pos hi] at h ⊢; cases h; rfl
    · rw [if_neg hi] at h ⊢
      by_cases h0 : n = 0
      · rw [if_pos h0] at h ⊢; cases h; rfl
      · rw [if_neg h0] at h ⊢
        cases hm : fetchMessage p n s with
        | error f => rw [hm] at h; cases f <;> cases h <;> rfl
        | ok M => rw [hm] at h; cases h; simp only [absorbChunk_outside, respond_eq, absorbChunk_mem]
  | finalize =>
    simp only [exec, execFinalize, Context.carried, largeDigest] at h ⊢
    split at h
    · rename_i hi; rw [if_pos hi]; cases h; rfl
    · rename_i hi
      rw [if_neg hi]
      split at h
      · rename_i hs; rw [if_pos hs]; cases h; rfl
      · rename_i hs
        rw [if_neg hs]
        split at h
        · rename_i hc; rw [if_pos hc]; cases h; rfl
        · cases h
  | hash128 a c p n =>
    simp only [exec, execHash128, oneShot, hf] at h ⊢
    cases hm : fetchMessage p n s with
    | error f => rw [hm] at h; cases h; rfl
    | ok M => rw [hm] at h; cases h; rfl
  | hash64 a p n =>
    simp only [exec, execHash64, oneShot, hf] at h ⊢
    cases hm : fetchMessage p n s with
    | error f => rw [hm] at h; cases h; rfl
    | ok M => rw [hm] at h; cases h; rfl
  | hash32 a p n =>
    simp only [exec, execHash32, oneShot, hf] at h ⊢
    cases hm : fetchMessage p n s with
    | error f => rw [hm] at h; cases h; rfl
    | ok M => rw [hm] at h; cases h; rfl

end Sys2Proof.Machine
end

