-- ==== Sys2Proof/Laws/Mixers.lean ====
section
/-! SUPPORT. What each part of the short mixer does at the default configuration, on the four working words by name, and the
seeded accumulator written out. -/

namespace Sys2Proof.Machine

/-- Words added into `c` and `d`. -/
theorem addAt_cd (h : Vector Word 4) (x y : Word) :
    addAt h (2, 3) x y = #v[h.get 0, h.get 1, h.get 2 + x, h.get 3 + y] := by
  ext i hi
  interval_cases i <;> simp [addAt, put, Vector.get_eq_getElem]

/-- Words added into `a` and `b`. -/
theorem addAt_ab (h : Vector Word 4) (x y : Word) :
    addAt h (0, 1) x y = #v[h.get 0 + x, h.get 1 + y, h.get 2, h.get 3] := by
  ext i hi
  interval_cases i <;> simp [addAt, put, Vector.get_eq_getElem]

/-- A half-stripe (R113, R114). -/
theorem halfStripe_eq (B : List Byte) (h : Vector Word 4) (o : Nat) :
    halfStripe B h o = shortMix #v[h.get 0, h.get 1, h.get 2 + le64 B o, h.get 3 + le64 B (o + 8)] := by
  rw [halfStripe, params_beforeMix, addAt_cd]

/-- A full stripe (R113). -/
theorem fullStripe_eq (B : List Byte) (h : Vector Word 4) (k : Nat) :
    fullStripe B h k =
      #v[(halfStripe B h (32 * k)).get 0 + le64 B (32 * k + 16), (halfStripe B h (32 * k)).get 1 + le64 B (32 * k + 24),
        (halfStripe B h (32 * k)).get 2, (halfStripe B h (32 * k)).get 3] := by
  rw [fullStripe, params_afterMix, addAt_ab]

/-- The empty tail (R116). -/
theorem foldTail_zero (B : List Byte) (h : Vector Word 4) (o : Nat) :
    foldTail B h o 0 = #v[h.get 0, h.get 1, h.get 2 + K, h.get 3 + K] := by
  rw [foldTail, if_pos rfl, params_K, addAt_cd]

/-- A tail of at least one byte (R115). -/
theorem foldTail_pos (B : List Byte) (h : Vector Word 4) (o r : Nat) (hr : r ≠ 0) :
    foldTail B h o r =
      #v[h.get 0, h.get 1, h.get 2 + lepad64 (slice B o (o + min r 8)), h.get 3 + lepad64 (slice B (o + 8) (o + r))] := by
  rw [foldTail, if_neg hr, params_tailWords, addAt_cd]

/-- `SeedAcc` written out (R130). -/
theorem seedAcc_eq (s0 s1 : Word) : seedAcc s0 s1 = #v[s0, s1, K, s0, s1, K, s0, s1, K, s0, s1, K] := by
  ext i hi
  interval_cases i <;> simp [seedAcc]

end Sys2Proof.Machine
end

