-- ==== Sys2Proof/Laws/PerInstr.lean ====
section
/-! SUPPORT. Statements made of every command, one lemma per constructor. Family `EncodesToItsRow`: the descriptor the encoder
writes has the `W0` of the command's row of spec/30_encoding.md R74, zero reserved bits, and zero in every word the command
ignores (R72, R79). -/

namespace Sys2Proof.Laws.EncodesToItsRow

/-- The number of a command's row in the opcode map of R74. -/
def row : Instr → Nat
  | .init _ _ => 1
  | .update _ _ => 2
  | .finalize => 3
  | .hash128 _ _ _ _ => 4
  | .hash64 _ _ _ => 5
  | .hash32 _ _ _ => 6

/-- `W0` is the row's number and, in every configuration that can carry the command, no ignored word or bit is set. -/
def Statement (i : Instr) : Prop :=
  (encode i).w0.toNat = row i ∧ (encode i).rsv0 = 0 ∧
    ∀ P : Params, i.wf P = true → ∀ w ∈ (encode i).ignoredWords P, w = 0

/-- The reserved bits of every encoded `W0` are zero. -/
theorem word_rsv0 (o : Opcode) : (Opcode.word o).extractLsb' 8 56 = 0 := by cases o <;> decide

/-- The bits above a field that holds the whole value are zero. -/
theorem above_eq_zero (w : Word) (n : Nat) (h : w.toNat < 2 ^ n) : w >>> n = 0 := by
  apply BitVec.eq_of_toNat_eq
  rw [BitVec.toNat_ushiftRight, Nat.shiftRight_eq_div_pow]
  exact Nat.div_eq_of_lt h

/-- The bits above `PTR` and `LEN` of a message operand that fits are zero. -/
theorem aboveOperand_eq_zero (d : Descriptor) (P : Params) (h : operandFits d.w3 d.w4 P = true) :
    ∀ w ∈ d.aboveOperand P, w = 0 := by
  simp only [operandFits, Bool.and_eq_true, decide_eq_true_eq] at h
  intro w hw
  simp only [Descriptor.aboveOperand, List.mem_cons, List.not_mem_nil, or_false] at hw
  rcases hw with rfl | rfl
  · exact above_eq_zero _ _ h.1
  · exact above_eq_zero _ _ h.2

theorem init (seed0 seed1 : Word) : Statement (.init seed0 seed1) :=
  ⟨rfl, word_rsv0 _, fun _ _ w hw => by simpa [encode, Descriptor.ignoredWords, Opcode.word, Opcode.code] using hw⟩

theorem update (ptr len : Word) : Statement (.update ptr len) := by
  refine ⟨rfl, word_rsv0 _, fun P h w hw => ?_⟩
  rcases List.mem_append.mp (show w ∈ [0, 0] ++ (encode (.update ptr len)).aboveOperand P from hw) with hw | hw
  · simpa using hw
  · exact aboveOperand_eq_zero (encode (.update ptr len)) _ h w hw

theorem finalize : Statement .finalize :=
  ⟨rfl, word_rsv0 _, fun _ _ w hw => by simpa [encode, Descriptor.ignoredWords, Opcode.word, Opcode.code] using hw⟩

theorem hash128 (seed0 seed1 ptr len : Word) : Statement (.hash128 seed0 seed1 ptr len) :=
  ⟨rfl, word_rsv0 _, fun _ h w hw => aboveOperand_eq_zero (encode (.hash128 seed0 seed1 ptr len)) _ h w hw⟩

theorem hash64 (seed ptr len : Word) : Statement (.hash64 seed ptr len) := by
  refine ⟨rfl, word_rsv0 _, fun P h w hw => ?_⟩
  rcases List.mem_cons.mp (show w ∈ 0 :: (encode (.hash64 seed ptr len)).aboveOperand P from hw) with hw | hw
  · exact hw
  · exact aboveOperand_eq_zero (encode (.hash64 seed ptr len)) _ h w hw

theorem hash32 (seed : Half) (ptr len : Word) : Statement (.hash32 seed ptr len) := by
  refine ⟨rfl, word_rsv0 _, fun P h w hw => ?_⟩
  have hz : (seed.setWidth 64 : Word) >>> 32 = 0 := above_eq_zero _ _ (by
    rw [BitVec.toNat_setWidth, Nat.mod_eq_of_lt (by omega)]; exact seed.isLt)
  rcases List.mem_append.mp
    (show w ∈ [(seed.setWidth 64 : Word) >>> 32, 0] ++ (encode (.hash32 seed ptr len)).aboveOperand P from hw) with hw | hw
  · simpa [hz] using hw
  · exact aboveOperand_eq_zero (encode (.hash32 seed ptr len)) _ h w hw

end Sys2Proof.Laws.EncodesToItsRow
end

