-- ==== Sys2Proof/Laws/Step.lean ====
section
/-! SUPPORT. What a step can do, said once: one case per host event. -/

namespace Sys2Proof.Machine

/-- Everything a step can do: wait, process a descriptor for a context, take a host write, or reset. -/
theorem step_cases (s : State) :
    (s.inbox = [] ∧ step s = .next s) ∨
    (∃ k d rest, s.inbox = .command k d :: rest ∧ step s = processOn k d { s with inbox := rest }) ∨
    (∃ a v rest, s.inbox = .write a v :: rest ∧ step s = .next (hostWrite a v { s with inbox := rest })) ∨
    (∃ rest, s.inbox = .reset :: rest ∧ step s = .next (resetBlock { s with inbox := rest })) := by
  unfold step
  cases h : s.inbox with
  | nil => exact .inl ⟨rfl, rfl⟩
  | cons e rest =>
    cases e with
    | command k d => exact .inr (.inl ⟨k, d, rest, rfl, rfl⟩)
    | write a v => exact .inr (.inr (.inl ⟨a, v, rest, rfl, rfl⟩))
    | reset => exact .inr (.inr (.inr ⟨rest, rfl, rfl⟩))

/-- Processing a descriptor is `IllegalCommand` or the command that it decodes to. -/
theorem processDescriptor_cases (d : Descriptor) (s : State) :
    (∃ e, decode d s.config = .error e ∧ processDescriptor d s = .next { s with response := some ⟨1, 0, 0⟩ }) ∨
    (∃ i, decode d s.config = .ok i ∧ processDescriptor d s = exec i s) := by
  unfold processDescriptor
  cases hd : decode d s.config with
  | error e => exact .inl ⟨e, rfl, rfl⟩
  | ok i => exact .inr ⟨i, rfl, rfl⟩

/-- No step changes the configuration. -/
theorem step_config (s t : State) (h : step s = .next t) : t.config = s.config := by
  rcases step_cases s with ⟨_, e⟩ | ⟨k, d, rest, _, e⟩ | ⟨a, v, rest, _, e⟩ | ⟨rest, _, e⟩ <;> rw [e] at h
  · cases h; rfl
  · exact (processOn_sameOutside k d _ _ h).1
  · cases h; rfl
  · cases h; rfl

/-- A run whose first step answers a next state goes on from it. -/
theorem run_succ_of_next (k : Nat) (s t : State) (h : step s = .next t) :
    Host.Core.run Sys2Proof.core (k + 1) s = Host.Core.run Sys2Proof.core k t := by
  have h' : Sys2Proof.core.step s = .next t := h
  simp only [Host.Core.run, h']

end Sys2Proof.Machine
end

