-- ==== Sys2Proof/Tests/Slice0.lean ====
section
/-! SUPPORT. The model's own tests: the well-formedness smoke tests, the encodings written out by hand from
spec/30_encoding.md, vectors of spec/95_test_vectors.md (each docstring names its vector), and for every obligation that has
hypotheses a witness that meets them. A test is about one command on a small state. -/

namespace Sys2Proof.Tests

open Sys2Proof Sys2Proof.Machine

-- One test at a time: the kernel evaluations of many tests at once would each hold a thread.
set_option Elab.async false

/-! ### Helpers -/

/-- `ramp(n)` of spec/95. -/
def ramp (n : Nat) : List Byte := (List.range n).map (BitVec.ofNat 8 ·)

/-- A message memory that holds `ramp(n)` from `base` on, in canonical form. -/
def rampMem (base n : Nat) : Memory :=
  (List.range n).filterMap fun i => if i % 256 = 0 then none else some (base + i, BitVec.ofNat 8 i)

/-- A state without a context, with `ramp(n)` at 0x1000 in its memory. -/
def idle (n : Nat) : State where
  acc := Vector.replicate 12 0
  carry := Vector.replicate 192 0
  clen := 0
  pcnt := 0
  ovf := false
  inited := false
  config := params
  others := []
  mem := rampMem 0x1000 n
  unreadable := []
  inbox := []
  response := none
  draws := 1

/-- A Small context with these seeds that carries `ramp(c)`, over `idle n`. -/
def small (s0 s1 : Word) (c : Fin 192) (n : Nat) : State :=
  { idle n with
    acc := seedAcc s0 s1, carry := Vector.ofFn fun i => BitVec.ofNat 8 i.val, clen := c, inited := true }

/-- The accumulator after `ramp(192)` with the seeds `(0, 0)` (V43-3). -/
def twoStripes : Vector Word 12 :=
  #v[0xe7f76ce372251f38, 0x86f9e648e5d9d57e, 0x40b39a265ad41fe8, 0xa96abc3ff170dedd, 0xfe837b13c504f607,
    0xf120699daef105ea, 0x41ed16a658b00b5d, 0xeec932bf851b57da, 0x6f8684126b12215f, 0x6779358cc17c85c2,
    0xefdd94a4c198ab40, 0xb33f13ff3dfe4bcf]

/-- A Large context after `ramp(192)`, with this count and flag, that carries the bytes `c0 c1 …`. -/
def large (pcnt : Word) (ovf : Bool) (c : Fin 192) (n : Nat) : State :=
  { idle n with
    acc := twoStripes, carry := Vector.ofFn fun i => BitVec.ofNat 8 (192 + i.val), clen := c, pcnt := pcnt, ovf := ovf
    inited := true }

/-- `s` on a block with two contexts, the second the Large one of `large 0xc0 false 5`. -/
def twoContexts (s : State) : State :=
  { s with config := { params with contexts := 2 }, others := [(large 0xc0 false 5 0).toContext] }

/-- A platform that refuses the address 0x3000 (P5). -/
def refusing (s : State) : State := { s with unreadable := [⟨0x3000, 1⟩] }

/-- The outcome is a next state with this property. -/
def ends (o : Host.Outcome State Fault Refusal) (p : State → Bool) : Bool :=
  match o with
  | .next t => p t
  | .fault _ => false
  | .refused _ => false

/-- The outcome is a next state with this response. -/
def answers (o : Host.Outcome State Fault Refusal) (r0 r1 r2 : Word) : Bool :=
  ends o fun t => t.response == some ⟨r0, r1, r2⟩

theorem next_of_ends (o : Host.Outcome State Fault Refusal) (p : State → Bool) (h : ends o p = true) :
    ∃ t, o = .next t ∧ p t = true := by
  cases o with
  | next t => exact ⟨t, rfl, h⟩
  | fault f => exact Bool.noConfusion h
  | refused r => exact Bool.noConfusion h

theorem next_of_answers (o : Host.Outcome State Fault Refusal) (r0 r1 r2 : Word) (h : answers o r0 r1 r2 = true) :
    ∃ t, o = .next t ∧ t.response = some ⟨r0, r1, r2⟩ := by
  obtain ⟨t, ht, hr⟩ := next_of_ends _ _ h
  exact ⟨t, ht, by simpa using hr⟩

/-! ### Well-formedness smoke tests -/

theorem test_wf_refuses_reserved_bits : (⟨0x102, 0, 0, 0, 0⟩ : Descriptor).check = some .reservedBits := by decide

theorem test_wf_refuses_top_reserved_bit :
    (⟨0x8000000000000003, 0, 0, 0, 0⟩ : Descriptor).check = some .reservedBits := by decide

theorem test_wf_refuses_opcode_zero : (⟨0, 0, 0, 0, 0⟩ : Descriptor).check = some .illegalOpcode := by decide

theorem test_wf_refuses_opcode_seven : (⟨7, 0, 0, 0, 0⟩ : Descriptor).check = some .illegalOpcode := by decide

theorem test_wf_refuses_ignored_word : (⟨3, 0, 0, 0, 1⟩ : Descriptor).check = some .ignoredOperand := by decide

theorem test_wf_refuses_high_half_of_hash32_seed :
    (⟨6, 0x100000005, 0, 0x1000, 10⟩ : Descriptor).check = some .ignoredOperand := by decide

/-- The bits above a length of 8 bits are ignored bits (log entry 15). -/
theorem test_wf_refuses_bits_above_a_narrow_length :
    (⟨2, 0, 0, 0x1000, 0x164⟩ : Descriptor).check { params with countWidth := 8 } = some .ignoredOperand := by decide

theorem test_wf_refuses_operand_above_its_width :
    (Instr.hash64 5 0x10000 1).wf { params with addressWidth := 16 } = false := by decide

theorem test_wf_accepts_hash32 : (⟨6, 5, 0, 0x1000, 10⟩ : Descriptor).wf = true := by decide

/-! ### Decoding, from the encodings of R71, R74 and R81 written out byte by byte -/

/-- R81: INIT 123456789, 987654321. -/
theorem test_decode_init :
    decodeBytes [0x01, 0, 0, 0, 0, 0, 0, 0, 0x15, 0xcd, 0x5b, 0x07, 0, 0, 0, 0, 0xb1, 0x68, 0xde, 0x3a, 0, 0, 0, 0,
      0, 0, 0, 0, 0, 0, 0, 0, 0, 0, 0, 0, 0, 0, 0, 0] = .ok (.init 123456789 987654321, []) := by rfl

/-- R81: UPDATE 0x1000, 100, as bytes. -/
theorem test_decode_update :
    decodeBytes [0x02, 0, 0, 0, 0, 0, 0, 0, 0, 0, 0, 0, 0, 0, 0, 0, 0, 0, 0, 0, 0, 0, 0, 0,
      0x00, 0x10, 0, 0, 0, 0, 0, 0, 0x64, 0, 0, 0, 0, 0, 0, 0] = .ok (.update 0x1000 100, []) := by rfl

/-- R81: FINALIZE, followed by two bytes that are no part of it. -/
theorem test_decode_finalize :
    decodeBytes ([0x03, 0, 0, 0, 0, 0, 0, 0] ++ zeros 32 ++ [0xaa, 0xbb]) = .ok (.finalize, [0xaa, 0xbb]) := by rfl

/-- P1: HASH128 0, 0, 0x1061, 3, the descriptor as bytes. -/
theorem test_decode_hash128 :
    decodeBytes ([0x04, 0, 0, 0, 0, 0, 0, 0] ++ zeros 16 ++ [0x61, 0x10, 0, 0, 0, 0, 0, 0, 0x03, 0, 0, 0, 0, 0, 0, 0]) =
      .ok (.hash128 0 0 0x1061 3, []) := by rfl

/-- R81: HASH64 5, 0x1000, 10. -/
theorem test_decode_hash64 : decode ⟨0x5, 0x5, 0, 0x1000, 0xa⟩ = .ok (.hash64 5 0x1000 10) := by rfl

/-- V45-21: bits 63:32 of `W1` are ignored. -/
theorem test_decode_hash32 :
    decode ⟨6, 0xdeadbeefdeadbeef, 0, 0x1000, 10⟩ = .ok (.hash32 0xdeadbeef 0x1000 10) := by rfl

theorem test_decode_short_descriptor : decodeBytes (zeros 39) = .error .shortDescriptor := by rfl

/-- The table's numbering: bit 64 is bit 0 of `W1`, bit 192 bit 0 of `W3`. -/
theorem test_decodeTableWord :
    decodeTableWord 320 (4 + 1 * 2 ^ 64 + 2 * 2 ^ 128 + 3 * 2 ^ 192 + 4 * 2 ^ 256) = some (.hash128 1 2 3 4) := by
  decide +kernel

theorem test_decodeTableWord_refuses : decodeTableWord 320 7 = none := by decide +kernel

/-- The step after `withFetchWord` runs the command, from reset: INIT. -/
theorem test_withFetchWord_init :
    ends (step (State.reset.withFetchWord 320 1)) (fun t => t.inited && t.clen == 0 && t.response == some ⟨0, 0, 0⟩) =
      true := by decide +kernel

/-- P5 row 1, from reset: FINALIZE. -/
theorem test_withFetchWord_finalize : answers (step (State.reset.withFetchWord 320 3)) 2 0 0 = true := by decide +kernel

/-! ### Primitives and mixers -/

/-- V40-1, V40-3, V40-6. -/
theorem test_loads :
    le64 [1, 2, 3, 4, 5, 6, 7, 8] 0 = 0x0807060504030201 ∧ le32 [0x78, 0x56, 0x34, 0x12] 0 = 0x12345678 ∧
      lepad64 [8, 9, 10, 11, 12, 13, 14] = 0x000e0d0c0b0a0908 := by decide

/-- V40-8, V40-9, V40-10. -/
theorem test_rotl64 :
    rotl64 0x8000000000000000 1 = 1 ∧ rotl64 0x0123456789abcdef 44 = 0xbcdef0123456789a ∧
      rotl64 0x0123456789abcdef 63 = 0x8091a2b3c4d5e6f7 := by decide

/-- V44-3: the overflow at its boundary, and the flag kept. -/
theorem test_add96 :
    add96 0xffffffffffffff9f false = (0xffffffffffffffff, false) ∧ add96 0xffffffffffffffa0 false = (0, true) ∧
      add96 0x20 true = (0x80, true) := by decide

/-- The arguments of R9 are used: the same calls in another configuration. -/
theorem test_params :
    le64 [1, 2, 3, 4, 5, 6, 7, 8] 0 { params with byteOrder := .big } = 0x0102030405060708 ∧
      rotl64 1 1 { params with rotDir := .right } = 0x8000000000000000 ∧
      (seedAcc 1 2 { params with K := 3 }).toList = [1, 2, 3, 1, 2, 3, 1, 2, 3, 1, 2, 3] ∧
      add96 200 false { params with countWidth := 8 } = (40, true) ∧
      outOfRange 0xfff0 0x20 { params with addressWidth := 16 } = true := by decide

/-- The machine runs at the configuration that its state carries (R9): HASH128 of no bytes, ShortEnd of `(1, 2, 2K, 2K)`, at
`K` = 0; a message past the top of 16 address bits; and operands cut to 16 and 8 bits. -/
theorem test_exec_config :
    ends (exec (.hash128 1 2 0 0) { idle 0 with config := { params with K := 0 } })
      (fun t => t.response == some ⟨0, (shortEnd #v[1, 2, 0, 0]).get 0, (shortEnd #v[1, 2, 0, 0]).get 1⟩) = true ∧
    answers (exec (.hash64 0 0xfff0 0x11) { idle 0 with config := { params with addressWidth := 16 } }) 3 0 0 = true ∧
    decode ⟨2, 0, 0, 0x51000, 0x164⟩ { params with addressWidth := 16, countWidth := 8 } = .ok (.update 0x1000 0x64) := by
  decide +kernel

/-- Context 1 of two (log entry 16): INIT of it leaves context 0, and a number without a context is illegal. -/
theorem test_contexts :
    ends (step { twoContexts (idle 0) with inbox := [.command 1 ⟨1, 7, 9, 0, 0⟩] }) (fun t =>
      !t.inited && t.others.map (fun c => (c.inited, c.acc.get 0, c.clen)) == [(true, 7, 0)] &&
        t.response == some ⟨0, 0, 0⟩) = true ∧
    answers (step { idle 0 with inbox := [.command 1 ⟨1, 7, 9, 0, 0⟩] }) 1 0 0 = true := by decide +kernel

/-- V41-3: every addition wraps. -/
theorem test_endPartial :
    endPartial (Vector.replicate 12 0xffffffffffffffff) =
      #v[0xbd7dedbfbdd967c1, 0x07c8fce891d0b4f8, 0x0000000000008001, 0xffffffffffff7ffd, 0x0000000000208002,
        0xffdfffbfffdf7ffc, 0x0021004400208003, 0xffdeffbb7ddf77fb, 0x002900489220e808, 0xf7b6fef7659f06f5,
        0xf83703176e2f4b06, 0x7c5fdbff5bfeddb7] := by decide +kernel

/-- V41-7, the first four words. -/
theorem test_endBlock :
    ((endBlock (seedAcc 123456789 987654321) (tagBlock [0xaa, 0xbb, 0xcc])).toList.take 4) =
      [0x91cc6911e4df634b, 0x4bc6b2d63c1ccc94, 0x5543cf77c3cae8e8, 0xe58611a61f9a940f] := by decide +kernel

/-- V42-1. -/
theorem test_shortMix :
    shortMix #v[1, 2, 3, 4] =
      #v[0x2bf7518bd9f16648, 0x9a082a6452e0d6f5, 0x8811513fd3edb160, 0x03826f115d34e2bd] := by decide +kernel

/-- V42-2. -/
theorem test_shortEnd :
    shortEnd #v[1, 2, 3, 4] =
      #v[0xd05bc6ce4c6b2efe, 0x8616ffe259af1463, 0xcc8d19644d5efedd, 0x6491d728a1b49620] := by decide +kernel

/-- V43-2, the sixth row: seeded accumulator and a ramp. -/
theorem test_mixStripe :
    mixStripe (seedAcc 123456789 987654321) (ramp 96) =
      #v[0xb7c8d3aaebc21e3c, 0x3c78a04a5d4314c9, 0xf5c69af4e7e1f9d8, 0xaca866e2911d45d9, 0x9a133291bc6617d0,
        0x29000d69174a22a2, 0x6292e706fb611b68, 0xf6d329f3abd20069, 0xaa1b3fe47bceb1e3, 0xb5afc1ed5c63ebe9,
        0x4fdc7eb5a0db6791, 0xccc6a3b5bbdeffdd] := by decide +kernel

/-- V42-4, seeds `S2`, one length for each branch: tail only, half-stripe, half-stripe and tail, whole stripe, all. -/
theorem test_short_branches :
    short (ramp 15) 123456789 987654321 = (0x98dee8922ebb7c5e, 0x9b8835011590e8b3) ∧
    short (ramp 16) 123456789 987654321 = (0x9f455d88a8d64192, 0xbe41c171914872ca) ∧
    short (ramp 17) 123456789 987654321 = (0x16e7bafd8eca0587, 0x9ace6cd09b853523) ∧
    short (ramp 32) 123456789 987654321 = (0xf92b2ea2a0e38e85, 0x386863ee80e0fffe) ∧
    short (ramp 63) 123456789 987654321 = (0xc3e799637e6ff791, 0xc6bb7c9c7e825647) := by decide +kernel

/-- V43-5 and V43-6: the bulk mixer at a leftover of 95 bytes, and below the threshold. -/
theorem test_bulk :
    bulk (ramp 287) 0 0 = (0xcc8dfc9d15477d24, 0xcd3957bd8def44ec) ∧
    bulk (ramp 96) 0 0 = (0x1416908fb52dfa47, 0x4196b6ea9a68f57f) := by decide +kernel

/-- GK9, the outside check: the 32-bit hash of `80 81 … ae` (47 bytes) and of the empty message with seed 0. -/
theorem test_published_self_test :
    lowHalf (hash128 ((List.range 47).map fun i => BitVec.ofNat 8 (i + 128)) 0 0).1 = 0x75728d0a ∧
    lowHalf (hash128 [] 0 0).1 = 0x6bf50919 := by decide +kernel

/-! ### The commands -/

/-- R141: INIT over a Large context. -/
theorem test_init :
    ends (exec (.init 7 9) (large 0xc0 true 5 0)) (fun t =>
      t.acc == #v[7, 9, 0xdeadbeefdeadbeef, 7, 9, 0xdeadbeefdeadbeef, 7, 9, 0xdeadbeefdeadbeef, 7, 9, 0xdeadbeefdeadbeef] &&
      t.pcnt == 0 && t.clen == 0 && !t.ovf && t.inited && t.response == some ⟨0, 0, 0⟩) = true := by decide +kernel

/-- P2 row 4: an append after ten carried bytes (the memory here starts the ramp at 0x1000). -/
theorem test_update_append :
    ends (exec (.update 0x100a 20) (small 123456789 987654321 10 30)) (fun t =>
      t.carried == ramp 30 && t.pcnt == 0 && !t.ovf && t.acc == seedAcc 123456789 987654321 &&
      t.response == some ⟨0, 0, 0⟩) = true := by decide +kernel

/-- P4 row 3: a small context of 95 bytes meets 300 more; four stripes, eleven bytes left. -/
theorem test_update_fold :
    ends (exec (.update 0x105f 300) (small 123456789 987654321 95 395)) (fun t =>
      t.acc == #v[0x5b056b98c3708b8d, 0x95542ccc22b028e6, 0x7194a8e95cf327c4, 0x9eb071e0c5fa031d, 0x0db7eaa4d67888fc,
        0x5d99de64ae899c56, 0x1e44e1a8339680f8, 0x3866dd96acd26d5c, 0x8d03e612f79564b4, 0xae44fbc81bc0c225,
        0xb637c701d403e4cd, 0x920e2a58c86a48ed] &&
      t.pcnt == 0x180 && !t.ovf && t.carried == [0x80, 0x81, 0x82, 0x83, 0x84, 0x85, 0x86, 0x87, 0x88, 0x89, 0x8a] &&
      t.response == some ⟨0, 0, 0⟩) = true := by decide +kernel

/-- V44-1, the row of 191 bytes. -/
theorem test_finalize_small :
    answers (exec .finalize (small 0 0 191 0)) 0 0x71043a03b5bb462f 0xfe7d0ad0a893b638 = true := by decide +kernel

/-- V44-2 with 95 carried bytes, `Bulk(ramp(287))`; and P6 row 1's digest where a zero count with the flag set is Large. -/
theorem test_finalize_large :
    answers (exec .finalize (large 0xc0 false 95 0)) 0 0xcc8dfc9d15477d24 0xcd3957bd8def44ec = true ∧
    answers (exec .finalize (large 0 true 0 0)) 0 0x02d13f94b2a31a54 0x0ea393db758d85d3 = true := by decide +kernel

/-- P1: a misaligned three-byte message. -/
theorem test_hash128 :
    answers (exec (.hash128 0 0 0x1061 3) (idle 100)) 0 0x8aab15f77537c967 0xc61367f8ca7811b0 = true := by decide +kernel

/-- V45-3: the bulk path. -/
theorem test_hash128_bulk :
    answers (exec (.hash128 0 0 0x1000 193) (idle 193)) 0 0x3000e51613f6e430 0x226030278b4737a0 = true := by
  decide +kernel

/-- V45-10. -/
theorem test_hash64 : answers (exec (.hash64 5 0x1000 10) (idle 10)) 0 0x8eedae4ad32e0db5 0 = true := by decide +kernel

/-- V45-15. -/
theorem test_hash64_bulk :
    answers (exec (.hash64 0xffffffff 0x1000 300) (idle 300)) 0 0x976c3467fa2452e7 0 = true := by decide +kernel

/-- V45-21: the seed is 0xdeadbeef. -/
theorem test_hash32 : answers (exec (.hash32 0xdeadbeef 0x1000 10) (idle 10)) 0 0x8969191a 0 = true := by
  decide +kernel

/-- V45-20: the seed is zero-extended. -/
theorem test_hash32_bulk :
    answers (exec (.hash32 0xffffffff 0x1000 300) (idle 300)) 0 0xfa2452e7 0 = true := by decide +kernel

/-! ### Faults and reset -/

/-- P5, last paragraph: a refused byte in the middle of a message invalidates the context. -/
theorem test_memFault_invalidates :
    ends (exec (.update 0x2ff0 0x20) (refusing (small 0 0 3 0))) (fun t =>
      !t.inited && t.response == some ⟨4, 0, 0⟩) = true := by decide +kernel

/-- P5 row 7: `NotInitialised` goes before `AddressRange`. -/
theorem test_fault_priority : answers (exec (.update 0xfffffffffffffff0 0x20) (idle 0)) 2 0 0 = true := by
  decide +kernel

/-- R200: a reset takes the context away and leaves the message memory. -/
theorem test_reset_event :
    ends (step { small 0 0 3 4 with inbox := [.reset] }) (fun t =>
      !t.inited && t.response == none && t.mem == rampMem 0x1000 4) = true := by decide +kernel

/-! ### Witnesses: for every obligation with hypotheses, a concrete case that meets them, clause by clause -/

/-- `idle 4` with this host event next and another after it. -/
def facing (e : HostEvent) : State := { idle 4 with inbox := [e, .reset] }

theorem refused_at_0x3000 (s : State) (ptr len : Word) (h1 : ptr.toNat ≤ 0x3000) (h2 : 0x3000 < ptr.toNat + len.toNat) :
    RefusedSomewhere (refusing s) ptr len := ⟨0x3000, h1, h2, rfl⟩

theorem all_readable (s : State) (ptr len : Word) (hs : s.unreadable = [] := by rfl)
    (h : outOfRange ptr len s.config = false := by rfl) : CanRead s ptr len := canRead_of_no_region s ptr len hs h

theorem passesTop_by (ptr len : Word) (h : outOfRange ptr len = true := by rfl) : PassesTop params ptr len :=
  (outOfRange_iff ptr len params).mp h

theorem inside_by (ptr len : Word) (h : outOfRange ptr len = false := by rfl) : ¬ PassesTop params ptr len := fun hp => by
  rw [← outOfRange_iff, h] at hp
  exact Bool.noConfusion hp

/-- A command that a narrow block can carry, at the boundary; and one it cannot. -/
theorem witness_DecodeOfEncodedBytes :
    (Instr.update 0xffff 0xff).wf { params with addressWidth := 16, countWidth := 8 } = true ∧
      (Instr.update 0xffff 0x100).wf { params with addressWidth := 16, countWidth := 8 } = false := by decide

theorem witness_EncodeOfDecodedDescriptor :
    (⟨6, 5, 0, 0x1000, 10⟩ : Descriptor).wf = true ∧ decode ⟨6, 5, 0, 0x1000, 10⟩ = .ok (.hash32 5 0x1000 10) :=
  ⟨by decide, rfl⟩

/-- Opcodes 1 and 6 select a command; 0, 7 and a reserved bit select none. -/
theorem witness_IllegalDescriptorsRaise :
    SelectsCommand ⟨1, 0, 0, 0, 0⟩ ∧ SelectsCommand ⟨6, 0, 0, 0, 0⟩ ∧ ¬ SelectsCommand ⟨0, 0, 0, 0, 0⟩ ∧
      ¬ SelectsCommand ⟨7, 0, 0, 0, 0⟩ ∧ ¬ SelectsCommand ⟨0x102, 0, 0, 0, 0⟩ ∧
      ¬ SelectsCommand ⟨0x8000000000000003, 0, 0, 0, 0⟩ := by
  refine ⟨?_, ?_, ?_, ?_, ?_, ?_⟩ <;> unfold SelectsCommand <;> decide

theorem witness_CommandsUseTheirOperandWords :
    decode ⟨6, 0xdeadbeefdeadbeef, 1, 2, 3⟩ = .ok (.hash32 0xdeadbeef 2 3) := rfl

theorem witness_StepRunsTheDecodedCommand :
    (facing (.command 0 ⟨5, 5, 0, 0x1000, 3⟩)).inbox = .command 0 ⟨5, 5, 0, 0x1000, 3⟩ :: [.reset] ∧
      decode ⟨5, 5, 0, 0x1000, 3⟩ = .ok (.hash64 5 0x1000 3) := ⟨rfl, rfl⟩

/-- Context 0, context 1 of two, and a number without a context. -/
theorem witness_StepRunsTheDecodedCommand_contexts :
    ({ twoContexts (idle 4) with inbox := [.command 1 ⟨3, 0, 0, 0, 0⟩] } : State).inbox =
        .command 1 ⟨3, 0, 0, 0, 0⟩ :: [] ∧
      1 ≤ (twoContexts (idle 4)).others.length ∧ (idle 4).others.length < 1 := ⟨rfl, by decide, by decide⟩

/-- Two blocks that differ in context 0 and agree on context 1, whose FINALIZE answers. -/
theorem witness_ContextsAreIndependent :
    (twoContexts (idle 4)).contextAt 1 = some (large 0xc0 false 5 0).toContext ∧
    (twoContexts (small 7 9 3 4)).contextAt 1 = some (large 0xc0 false 5 0).toContext ∧
    (twoContexts (idle 4)).mem = (twoContexts (small 7 9 3 4)).mem ∧
    ∃ t, step { twoContexts (idle 4) with inbox := [.command 1 ⟨3, 0, 0, 0, 0⟩] } = .next t ∧ t.inbox = [] := by
  refine ⟨rfl, rfl, rfl, ?_⟩
  obtain ⟨t, ht, h⟩ := next_of_ends (step { twoContexts (idle 4) with inbox := [.command 1 ⟨3, 0, 0, 0, 0⟩] })
    (fun t => t.inbox == []) (by decide +kernel)
  exact ⟨t, ht, by simpa using h⟩

theorem witness_StepTakesHostEvents :
    (idle 4).inbox = [] ∧
    ((facing (.write 0xffffffffffffffff 7)).inbox = .write 0xffffffffffffffff 7 :: [.reset] ∧
      (facing (.write 0xffffffffffffffff 7)).mem.wf = true) ∧
    (facing .reset).inbox = .reset :: [.reset] := ⟨rfl, ⟨rfl, by decide⟩, rfl⟩

theorem witness_ConfigurationIsTheDefaultAndFixed :
    ∃ t, step (twoContexts (facing (.command 1 ⟨3, 0, 0, 0, 0⟩))) = .next t ∧ t.config.contexts = 2 := by
  obtain ⟨t, ht, h⟩ := next_of_ends (step (twoContexts (facing (.command 1 ⟨3, 0, 0, 0, 0⟩))))
    (fun t => t.config.contexts == 2) (by decide +kernel)
  exact ⟨t, ht, by simpa using h⟩

theorem witness_EarlierResponseHasNoEffect :
    (facing (.command 0 ⟨3, 0, 0, 0, 0⟩)).inbox = .command 0 ⟨3, 0, 0, 0, 0⟩ :: [.reset] := rfl

/-- A descriptor with an answer, for the statements about the response of a descriptor. -/
theorem processed (d : Descriptor) (s : State) (r0 r1 r2 : Word) (h : answers (processDescriptor d s) r0 r1 r2 = true) :
    ∃ t r, processDescriptor d s = .next t ∧ t.response = some r ∧ r = ⟨r0, r1, r2⟩ := by
  obtain ⟨t, ht, hr⟩ := next_of_answers _ _ _ _ h
  exact ⟨t, _, ht, hr, rfl⟩

/-- The five clauses: an illegal descriptor; FINALIZE without a context; a message one byte too long, and the longest one
that ends at the top; a refused byte that is the message's last; and a command that passes every check. -/
theorem witness_FaultIsTheFirstFailingCheck :
    (¬ SelectsCommand ⟨7, 0, 0, 0, 0⟩ ∧
      ∃ t r, processDescriptor ⟨7, 0, 0, 0, 0⟩ (idle 4) = .next t ∧ t.response = some r ∧ r = ⟨1, 0, 0⟩) ∧
    (SelectsCommand ⟨3, 0, 0, 0, 0⟩ ∧ (idle 4).inited = false ∧
      ∃ t r, processDescriptor ⟨3, 0, 0, 0, 0⟩ (idle 4) = .next t ∧ t.response = some r ∧ r = ⟨2, 0, 0⟩) ∧
    (SelectsCommand ⟨4, 0, 0, 0xfffffffffffffff0, 0x11⟩ ∧ PassesTop params 0xfffffffffffffff0 0x11 ∧
      ¬ PassesTop params 0xfffffffffffffff0 0x10 ∧
      ∃ t r, processDescriptor ⟨4, 0, 0, 0xfffffffffffffff0, 0x11⟩ (idle 4) = .next t ∧ t.response = some r ∧
        r = ⟨3, 0, 0⟩) ∧
    (SelectsCommand ⟨5, 0, 0, 0x2ff0, 0x11⟩ ∧ ¬ PassesTop params 0x2ff0 0x11 ∧
      RefusedSomewhere (refusing (idle 4)) 0x2ff0 0x11 ∧
      ∃ t r, processDescriptor ⟨5, 0, 0, 0x2ff0, 0x11⟩ (refusing (idle 4)) = .next t ∧ t.response = some r ∧
        r = ⟨4, 0, 0⟩) ∧
    (SelectsCommand ⟨1, 0, 0, 0, 0⟩ ∧
      ∃ t r, processDescriptor ⟨1, 0, 0, 0, 0⟩ (idle 4) = .next t ∧ t.response = some r ∧ r = ⟨0, 0, 0⟩) := by
  refine ⟨⟨by unfold SelectsCommand; decide, processed _ _ _ _ _ (by decide +kernel)⟩,
    ⟨by unfold SelectsCommand; decide, rfl, processed _ _ _ _ _ (by decide +kernel)⟩,
    ⟨by unfold SelectsCommand; decide, passesTop_by _ _, inside_by _ _, processed _ _ _ _ _ (by decide +kernel)⟩,
    ⟨by unfold SelectsCommand; decide, inside_by _ _, refused_at_0x3000 _ _ _ (by decide) (by decide),
      processed _ _ _ _ _ (by decide +kernel)⟩,
    ⟨by unfold SelectsCommand; decide, processed _ _ _ _ _ (by decide +kernel)⟩⟩

/-- A fault that leaves everything, and a refused read inside UPDATE. -/
theorem witness_FaultsArePrecise :
    (∃ t r, processDescriptor ⟨2, 0, 0, 0x1000, 4⟩ (idle 4) = .next t ∧ t.response = some r ∧ r = ⟨2, 0, 0⟩) ∧
    (∃ t r, processDescriptor ⟨2, 0, 0, 0x2ff0, 0x20⟩ (refusing (small 0 0 3 0)) = .next t ∧
      t.response = some r ∧ r = ⟨4, 0, 0⟩) :=
  ⟨processed _ _ _ _ _ (by decide +kernel), processed _ _ _ _ _ (by decide +kernel)⟩

theorem witness_NotInitialisedFault :
    (NeedsContext (.update 0x1000 0) ∧ (idle 4).inited = false) ∧ (NeedsContext .finalize ∧ (idle 4).inited = false) ∧
    ∃ t, exec .finalize (idle 4) = .next t ∧ t.response = some ⟨2, 0, 0⟩ :=
  ⟨⟨.inr ⟨_, _, rfl⟩, rfl⟩, ⟨.inl rfl, rfl⟩, next_of_answers _ _ _ _ (by decide +kernel)⟩

theorem witness_AddressRangeFault :
    (messageOperand (.update 0xfffffffffffffff0 0x11) = some (0xfffffffffffffff0, 0x11) ∧
      PassesTop params 0xfffffffffffffff0 0x11 ∧ (small 0 0 3 0).inited = true) ∧
    (messageOperand (.hash128 0 0 0xfffffffffffffff0 0x20) = some (0xfffffffffffffff0, 0x20) ∧
      PassesTop params 0xfffffffffffffff0 0x20 ∧ ¬ NeedsContext (.hash128 0 0 0xfffffffffffffff0 0x20)) ∧
    ∃ t, exec (.hash32 0 0xffffffffffffffff 2) (idle 0) = .next t ∧ t.response = some ⟨3, 0, 0⟩ := by
  refine ⟨⟨rfl, passesTop_by _ _, rfl⟩, ⟨rfl, passesTop_by _ _, ?_⟩, next_of_answers _ _ _ _ (by decide +kernel)⟩
  rintro (h | ⟨_, _, h⟩) <;> exact Instr.noConfusion h

theorem witness_RefusedReadFault :
    (messageOperand (.hash64 0 0x3000 1) = some (0x3000, 1) ∧ ¬ NeedsContext (.hash64 0 0x3000 1) ∧
      ¬ PassesTop params 0x3000 1 ∧ RefusedSomewhere (refusing (idle 0)) 0x3000 1) ∧
    ((refusing (small 0 0 3 0)).inited = true ∧ ¬ PassesTop params 0x2ff0 0x20 ∧
      RefusedSomewhere (refusing (small 0 0 3 0)) 0x2ff0 0x20) ∧
    ∃ t, exec (.hash64 0 0x3000 1) (refusing (idle 0)) = .next t ∧ t.response = some ⟨4, 0, 0⟩ := by
  refine ⟨⟨rfl, ?_, inside_by _ _, refused_at_0x3000 _ _ _ (by decide) (by decide)⟩,
    ⟨rfl, inside_by _ _, refused_at_0x3000 _ _ _ (by decide) (by decide)⟩, next_of_answers _ _ _ _ (by decide +kernel)⟩
  rintro (h | ⟨_, _, h⟩) <;> exact Instr.noConfusion h

/-- A HASH32 that completes: the clauses about a digest; and INIT. -/
theorem witness_ResponseWordsInRange :
    (∃ t, exec (.hash32 5 0x1000 10) (idle 10) = .next t ∧ t.response = some ⟨0, 0xd32e0db5, 0⟩) ∧
    (∃ t, exec (.init 0 0) (idle 0) = .next t ∧ t.response = some ⟨0, 0, 0⟩) ∧
    ∃ t, exec .finalize (idle 0) = .next t ∧ t.response = some ⟨2, 0, 0⟩ :=
  ⟨next_of_answers _ _ _ _ (by decide +kernel), next_of_answers _ _ _ _ (by decide +kernel),
    next_of_answers _ _ _ _ (by decide +kernel)⟩

theorem witness_ZeroLengthUpdateIsNoOp : (small 0 0 3 0).inited = true ∧ (idle 0).inited = false := ⟨rfl, rfl⟩

/-- The largest append: 190 carried bytes and one more; and the smallest. -/
theorem witness_UpdateAppendsWhileSmall :
    ((small 0 0 190 4).inited = true ∧ CanRead (small 0 0 190 4) 0x1000 1 ∧ (1 : Word) ≠ 0 ∧
      (small 0 0 190 4).small = true ∧ (small 0 0 190 4).clen.val + (1 : Word).toNat < 192) ∧
    ((small 0 0 0 4).inited = true ∧ CanRead (small 0 0 0 4) 0x1000 191 ∧ (191 : Word) ≠ 0 ∧
      (small 0 0 0 4).small = true ∧ (small 0 0 0 4).clen.val + (191 : Word).toNat < 192) :=
  ⟨⟨rfl, all_readable _ _ _, by decide, by decide +kernel, by decide⟩,
    ⟨rfl, all_readable _ _ _, by decide, by decide +kernel, by decide⟩⟩

/-- The smallest total that folds; and a Large context with one new byte. -/
theorem witness_UpdateFoldsWholeStripes :
    ((small 0 0 191 4).inited = true ∧ CanRead (small 0 0 191 4) 0x1000 1 ∧ (1 : Word) ≠ 0 ∧
      192 ≤ (small 0 0 191 4).clen.val + (1 : Word).toNat) ∧
    ((large 0xc0 false 95 4).inited = true ∧ CanRead (large 0xc0 false 95 4) 0x1000 1 ∧
      (large 0xc0 false 95 4).large = true) :=
  ⟨⟨rfl, all_readable _ _ _, by decide, by decide⟩, ⟨rfl, all_readable _ _ _, by decide +kernel⟩⟩

/-- The smallest count that one stripe makes overflow (V44-3). -/
theorem witness_OverflowIsNotAFault :
    (large 0xffffffffffffffa0 false 0 0).inited = true ∧ CanRead (large 0xffffffffffffffa0 false 0 0) 0x1000 96 ∧
      (96 : Word) ≠ 0 ∧ (large 0xffffffffffffffa0 false 0 0).large = true ∧
      (large 0xffffffffffffffa0 false 0 0).pcnt.toNat < 2 ^ params.countWidth.val ∧
      2 ^ params.countWidth.val ≤ (large 0xffffffffffffffa0 false 0 0).pcnt.toNat +
        96 * (((large 0xffffffffffffffa0 false 0 0).clen.val + (96 : Word).toNat) / 96) :=
  ⟨rfl, all_readable _ _ _, by decide, by decide +kernel, by decide +kernel, by decide +kernel⟩

/-- A count of 8 bits, at its end. -/
theorem witness_FoldLoopCountsItsStripes :
    ({ large 0xff false 0 0 with config := { params with countWidth := 8 } } : State).pcnt.toNat < 2 ^ 8 := by decide

theorem witness_OverflowFlagIsSticky :
    (∀ a b, Instr.finalize ≠ .init a b) ∧ (large 0 true 3 0).ovf = true ∧
      ∃ t, exec .finalize (large 0 true 3 0) = .next t ∧ t.inited = true := by
  refine ⟨fun _ _ h => Instr.noConfusion h, rfl, ?_⟩
  exact next_of_ends _ (fun t => t.inited) (by decide +kernel)

/-- The rows: without a context; an UPDATE that stays Small, one that crosses, one on a Large context; FINALIZE on each;
a refused read. -/
theorem witness_StateMachineTransitions :
    (NeedsContext .finalize ∧ (idle 0).inited = false) ∧
    ((small 0 0 190 4).inited = true ∧ CanRead (small 0 0 190 4) 0x1000 1) ∧
    ((small 0 0 191 4).inited = true ∧ CanRead (small 0 0 191 4) 0x1000 1) ∧
    ((large 0xc0 false 95 4).large = true ∧ (large 0xc0 false 95 4).clen.val ≤ 95 ∧
      CanRead (large 0xc0 false 95 4) 0x1000 1) ∧
    ((small 0 0 191 4).large = false) ∧
    ((refusing (small 0 0 3 0)).inited = true ∧ ¬ PassesTop params 0x2ff0 0x20 ∧
      RefusedSomewhere (refusing (small 0 0 3 0)) 0x2ff0 0x20) :=
  ⟨⟨.inl rfl, rfl⟩, ⟨rfl, all_readable _ _ _⟩, ⟨rfl, all_readable _ _ _⟩,
    ⟨by decide +kernel, by decide, all_readable _ _ _⟩, by decide +kernel,
    rfl, inside_by _ _, refused_at_0x3000 _ _ _ (by decide) (by decide)⟩

theorem witness_LargeIsOneDirectional :
    (∀ a b, Instr.update 0x1000 1 ≠ .init a b) ∧ (large 0xc0 false 95 4).large = true ∧
      ∃ t, exec (.update 0x1000 1) (large 0xc0 false 95 4) = .next t ∧ t.pcnt = 0x120 := by
  refine ⟨fun _ _ h => Instr.noConfusion h, by decide +kernel, ?_⟩
  obtain ⟨t, ht, h⟩ := next_of_ends (exec (.update 0x1000 1) (large 0xc0 false 95 4)) (fun t => t.pcnt == 0x120)
    (by decide +kernel)
  exact ⟨t, ht, by simpa using h⟩

theorem witness_FinalizeReturnsTheDigest :
    (idle 0).inited = false ∧
    ((small 0 0 191 0).inited = true ∧ (small 0 0 191 0).ovf = false ∧ (small 0 0 191 0).pcnt = 0 ∧
      (small 0 0 191 0).pcnt.toNat + (small 0 0 191 0).clen.val < 192) ∧
    ((large 0xc0 false 95 0).inited = true ∧ (large 0xc0 false 95 0).pcnt ≠ 0 ∧ (large 0xc0 false 95 0).clen.val ≤ 95) ∧
    ((large 0 true 0 0).inited = true ∧ (large 0 true 0 0).ovf ≠ false ∧ (large 0 true 0 0).clen.val ≤ 95) :=
  ⟨rfl, ⟨rfl, rfl, rfl, by decide +kernel⟩, ⟨rfl, by decide +kernel, by decide⟩, ⟨rfl, by decide, by decide⟩⟩

/-- The refused form at its boundary, 96 carried bytes; at 95 the command completes (witness above). -/
theorem witness_OnlyFinalizeOutsideTheInvariantIsRefused :
    (large 0xc0 false 96 0).inited = true ∧ (large 0xc0 false 96 0).large = true ∧
      96 ≤ (large 0xc0 false 96 0).clen.val ∧
      exec .finalize (large 0xc0 false 96 0) = .refused .finalizeCarryPastStripe :=
  ⟨rfl, by decide +kernel, by decide, rfl⟩

theorem witness_OnlyInitAndUpdateWriteTheContext :
    ((∀ a b, Instr.finalize ≠ .init a b) ∧ (∀ p n, Instr.finalize ≠ .update p n) ∧
      ∃ t, exec .finalize (small 0 0 191 0) = .next t ∧
        t.response = some ⟨0, 0x71043a03b5bb462f, 0xfe7d0ad0a893b638⟩) ∧
    ((∀ a b, Instr.hash64 5 0x1000 10 ≠ .init a b) ∧ ¬ NeedsContext (.hash64 5 0x1000 10) ∧
      (large 0xc0 false 5 10).mem = (idle 10).mem ∧ (large 0xc0 false 5 10).unreadable = (idle 10).unreadable ∧
      (large 0xc0 false 5 10).config = (idle 10).config) := by
  refine ⟨⟨fun _ _ h => Instr.noConfusion h, fun _ _ h => Instr.noConfusion h,
    next_of_answers _ _ _ _ (by decide +kernel)⟩, fun _ _ h => Instr.noConfusion h, ?_, rfl, rfl, rfl⟩
  rintro (h | ⟨_, _, h⟩) <;> exact Instr.noConfusion h

/-- A stream of context `k` with every kind of event that keeps it: two UPDATEs, an empty one, a host write between them, a
FINALIZE, a one-shot command, an illegal descriptor, and an INIT, an UPDATE and a FINALIZE of another context. -/
def streamEvents (k other : Nat) : List HostEvent :=
  [issue k (.update 0x1000 100), issue k (.update 0x2000 0), .write 0x1064 0xaa, issue k .finalize,
    issue k (.hash128 0 0 0x1000 3), .command k ⟨7, 0, 0, 0, 0⟩, issue other .finalize, issue other (.init 3 4),
    issue other (.update 0x1000 1), issue k (.update 0x1064 92)]

theorem streamEvents_keep (k other : Nat) (h : other ≠ k) (s : State) (h0 : s.config.addressWidth = 64)
    (h1 : s.config.countWidth = 64) (hs : s.unreadable = []) : ∀ e ∈ streamEvents k other, KeepsStream k s e := by
  have hd : ∀ i : Instr, decode (encode i) s.config = decode (encode i) := fun i => by
    simp only [decode, Descriptor.operands, Descriptor.ptr, Descriptor.len, h0, h1]; rfl
  have hr : ∀ p n : Word, outOfRange p n = false → CanRead s p n := fun p n ho =>
    canRead_of_no_region s p n hs (by rw [outOfRange, h0]; exact ho)
  intro e he
  simp only [streamEvents, List.mem_cons, List.not_mem_nil, or_false] at he
  rcases he with rfl | rfl | rfl | rfl | rfl | rfl | rfl | rfl | rfl | rfl <;>
    simp only [issue, KeepsStream, hd] <;> first | exact fun _ => hr _ _ rfl | exact h | trivial

/-- The stream on the one context of a default block, whose command for another number answers `IllegalCommand`; and on the
second context of two, the first being a Small one. -/
theorem witness_StreamingEqualsOneShot :
    (∀ e ∈ streamEvents 0 1,
      KeepsStream 0 { idle 4 with inbox := issue 0 (.init 1 2) :: (streamEvents 0 1 ++ issue 0 .finalize :: []) } e) ∧
    (1 ≤ (twoContexts (small 0 0 3 4)).others.length ∧
      ContextOk (twoContexts (small 0 0 3 4)).config (small 0 0 3 4).toContext ∧
      ∀ e ∈ streamEvents 1 0,
        KeepsStream 1
          { twoContexts (small 0 0 3 4) with
            inbox := issue 1 (.init 1 2) :: (streamEvents 1 0 ++ issue 1 .finalize :: []) } e) :=
  ⟨streamEvents_keep 0 1 (by decide) _ rfl rfl rfl, by decide,
    ⟨fun h => absurd h (by decide), fun _ => rfl, fun _ => rfl⟩, streamEvents_keep 1 0 (by decide) _ rfl rfl rfl⟩

/-- The Small state after the stream `ramp c`. -/
theorem holdsStream_small (c : Fin 192) (h : (small 0 0 c 4).carried = ramp c.val) :
    HoldsStream params 0 0 (ramp c.val) (small 0 0 c 4).toContext where
  initialised := rfl
  small_state := fun _ => ⟨rfl, rfl, rfl, h, by simp [ramp]; rfl⟩
  large_state := fun hl => ((isLarge_iff _).mp hl).elim (fun h => Bool.noConfusion h) (fun h => absurd rfl h)
  small_iff := ⟨fun _ => by simp [ramp], fun _ => rfl⟩

/-- The Large state after a stream `T` of `p` folded bytes and the carried bytes. -/
theorem holdsStream_large (s : Context) (T : List Byte) (p : Nat) (hi : s.inited = true) (h0 : 192 ≤ p)
    (hp : p % 96 = 0) (h64 : p < 2 ^ 64) (hc : s.clen.val ≤ 95) (hpc : s.pcnt = BitVec.ofNat 64 p) (ho : s.ovf = false)
    (hT : T.length = p + s.clen.val) (ha : s.acc = absorb (seedAcc 0 0) (T.take p)) (hd : s.carried = T.drop p) :
    HoldsStream params 0 0 T s where
  initialised := hi
  small_state := fun hs => by
    rw [isSmall_iff] at hs
    have h : s.pcnt.toNat = 0 := by rw [hs.2]; rfl
    rw [hpc, BitVec.toNat_ofNat, Nat.mod_eq_of_lt h64] at h
    omega
  large_state := fun _ => ⟨hc, p, by omega, hp, by rw [hpc, BitVec.toNat_ofNat]; rfl,
    ⟨fun h => by rw [ho] at h; exact Bool.noConfusion h, fun h => by rw [params_countWidth] at h; omega⟩, hT, ha, hd⟩
  small_iff := by
    constructor
    · intro hs
      rw [isSmall_iff] at hs
      have h : s.pcnt.toNat = 0 := by rw [hs.2]; rfl
      rw [hpc, BitVec.toNat_ofNat, Nat.mod_eq_of_lt h64] at h
      omega
    · intro h
      omega

/-- `large` after `ramp(192 + c)`, for `c ≤ 95`. -/
theorem holdsStream_ramp (c : Fin 192) (hc : c.val ≤ 95) (hd : (large 0xc0 false c 4).carried = (ramp (192 + c.val)).drop 192)
    (ht : (ramp (192 + c.val)).take 192 = ramp 192) : HoldsStream params 0 0 (ramp (192 + c.val)) (large 0xc0 false c 4).toContext :=
  holdsStream_large _ _ 192 rfl (by decide) (by decide) (by decide) hc rfl rfl (by simp [ramp]; rfl)
    (by rw [ht]; exact show twoStripes = _ from by decide +kernel) hd

/-- The state after `ramp(288)`. -/
def threeStripes : State := { large 0x120 false 0 4 with acc := absorb (seedAcc 0 0) (ramp 288) }

theorem holdsStream_threeStripes : HoldsStream params 0 0 (ramp 288) threeStripes.toContext :=
  holdsStream_large _ _ 288 rfl (by decide) (by decide) (by decide) (by decide) rfl rfl (by decide +kernel)
    (by decide +kernel) (by decide +kernel)

theorem witness_ContextHoldsItsStream :
    (HoldsStream params 0 0 (ramp 191) (small 0 0 191 4).toContext ∧ CanRead (small 0 0 191 4) 0x1000 1 ∧ (small 0 0 191 4).ovf = false) ∧
    (HoldsStream params 0 0 (ramp 287) (large 0xc0 false 95 4).toContext ∧ CanRead (large 0xc0 false 95 4) 0x1000 1) ∧
    (∀ a b, Instr.finalize ≠ .init a b) ∧ ∀ p n, Instr.finalize ≠ .update p n :=
  ⟨⟨holdsStream_small 191 (by decide +kernel), all_readable _ _ _, rfl⟩,
    ⟨holdsStream_ramp 95 (by decide) (by decide +kernel) (by decide +kernel), all_readable _ _ _⟩,
    fun _ _ h => Instr.noConfusion h, fun _ _ h => Instr.noConfusion h⟩

/-- Every row of R152's table. -/
theorem witness_BoundaryTable :
    288 < 2 ^ params.countWidth.val ∧
    (HoldsStream params 0 0 (ramp 0) (small 0 0 0 4).toContext ∧ HoldsStream params 0 0 (ramp 95) (small 0 0 95 4).toContext ∧
      HoldsStream params 0 0 (ramp 96) (small 0 0 96 4).toContext ∧ HoldsStream params 0 0 (ramp 97) (small 0 0 97 4).toContext ∧
      HoldsStream params 0 0 (ramp 191) (small 0 0 191 4).toContext) ∧
    (HoldsStream params 0 0 (ramp 192) (large 0xc0 false 0 4).toContext ∧ HoldsStream params 0 0 (ramp 193) (large 0xc0 false 1 4).toContext ∧
      HoldsStream params 0 0 (ramp 287) (large 0xc0 false 95 4).toContext ∧ HoldsStream params 0 0 (ramp 288) threeStripes.toContext) :=
  ⟨by decide, ⟨holdsStream_small 0 (by decide +kernel), holdsStream_small 95 (by decide +kernel),
      holdsStream_small 96 (by decide +kernel), holdsStream_small 97 (by decide +kernel),
      holdsStream_small 191 (by decide +kernel)⟩,
    ⟨holdsStream_ramp 0 (by decide) (by decide +kernel) (by decide +kernel),
      holdsStream_ramp 1 (by decide) (by decide +kernel) (by decide +kernel),
      holdsStream_ramp 95 (by decide) (by decide +kernel) (by decide +kernel), holdsStream_threeStripes⟩⟩

/-- The three clauses of the one-shot statements: a message that ends at the top can be read, one byte more passes it, and
a refused byte (`Hash128ReturnsBothWords`, `Hash64ReturnsTheFirstWord`, `Hash32ReturnsTheLowHalf`,
`CommandIdentities`). -/
theorem witness_OneShotCommands :
    CanRead (idle 4) 0xfffffffffffffff0 0x10 ∧ PassesTop params 0xfffffffffffffff0 0x11 ∧
      (¬ PassesTop params 0x2ff0 0x20 ∧ RefusedSomewhere (refusing (idle 4)) 0x2ff0 0x20) :=
  ⟨all_readable _ _ _, passesTop_by _ _, inside_by _ _, refused_at_0x3000 _ _ _ (by decide) (by decide)⟩

theorem witness_DispatchIsStrictAt192 : (ramp 191).length ≤ 191 ∧ 192 ≤ (ramp 192).length := by simp [ramp]

theorem witness_CommandsNeverWriteMemory :
    ∃ t, exec (.update 0x1000 1) (small 0 0 191 4) = .next t ∧ t.response = some ⟨0, 0, 0⟩ :=
  next_of_answers _ _ _ _ (by decide +kernel)

/-- Two memories that agree on the message and differ elsewhere; and the command that is refused. -/
theorem witness_CommandsReadOnlyTheirMessage :
    (messageOperand (.hash64 5 0x1000 10) = some (0x1000, 10) ∧ (rampMem 0x1000 10).read 0x100a = 0 ∧
      ((rampMem 0x1000 11).read 0x100a = 10) ∧
      (∀ k, k < 10 → (rampMem 0x1000 11).read (0x1000 + k) = (idle 10).mem.read (0x1000 + k)) ∧
      ∃ t, exec (.hash64 5 0x1000 10) (idle 10) = .next t ∧ t.response = some ⟨0, 0x8eedae4ad32e0db5, 0⟩) ∧
    (messageOperand .finalize = none ∧
      exec .finalize (large 0xc0 false 96 0) = .refused .finalizeCarryPastStripe) :=
  ⟨⟨rfl, by decide, by decide, by decide, next_of_answers _ _ _ _ (by decide +kernel)⟩, rfl, rfl⟩

/-- The same four bytes at 0x1000 and, by the ramp's period, at 0x1100. -/
theorem witness_PlacementHasNoEffect :
    CanRead (idle 0x104) 0x1000 4 ∧ CanRead (idle 0x104) 0x1100 4 ∧
      ∀ k, k < (4 : Word).toNat →
        (idle 0x104).mem.read ((0x1000 : Word).toNat + k) = (idle 0x104).mem.read ((0x1100 : Word).toNat + k) :=
  ⟨all_readable _ _ _, all_readable _ _ _, by decide +kernel⟩

theorem witness_MemoryReadAfterWrite : (rampMem 0x1000 4).wf = true := by decide

theorem witness_CanonicalMemoriesAreEqual :
    (rampMem 0x1000 4).wf = true ∧ ((rampMem 0x1000 4).write 7 0).wf = true ∧
      ∀ a, a < 2 ^ 64 → (rampMem 0x1000 4).read a = ((rampMem 0x1000 4).write 7 0).read a :=
  ⟨by decide, by decide, fun _ _ => rfl⟩

theorem witness_WordReadsAreLittleEndian : (3 : Nat) + 8 ≤ 11 := by decide

theorem witness_RotateMovesEachBit : (1 ≤ 1 ∧ 1 ≤ 63 ∧ 63 < 64) ∧ (1 ≤ 63 ∧ 63 ≤ 63 ∧ 0 < 64) := by decide

theorem witness_PaddedWordIsTheSumOfItsBytes : (ramp 8).length ≤ 8 ∧ ([] : List Byte).length ≤ 8 := by decide

theorem witness_EndAddsThenDiffuses :
    ∀ i : Fin 12, (words12 (ramp 96)).get i = (Vector.replicate 12 (0 : Word)).get i + le64 (ramp 96) (8 * i.val) := by
  decide +kernel

theorem witness_AbsorbIsStripeByStripe : (ramp 192).length % 96 = 0 := by decide +kernel

/-- The longest leftover, with its last byte and the first of a shorter one's zeros. -/
theorem witness_TagBlockLayout :
    (ramp 95).length ≤ 95 ∧ 94 < (ramp 95).length ∧ ([] : List Byte).length ≤ 95 ∧ ([] : List Byte).length ≤ 0 := by
  decide +kernel

theorem witness_TagBlockTellsLeftoversApart :
    (ramp 95).length ≤ 95 ∧ words12 (tagBlock (ramp 95)) = words12 (tagBlock (ramp 95)) ∧
      words12 (tagBlock []) ≠ words12 (tagBlock [0]) := ⟨by decide +kernel, rfl, by decide +kernel⟩

/-- The longest tail, one of eight bytes, the shortest, and the empty ones of a message of 32 bytes and of none. -/
theorem witness_TailIsThePerByteTable :
    (176 + 15 = (ramp 191).length ∧ 15 ≤ 15) ∧ 32 + 8 = (ramp 40).length ∧ 0 + 1 = (ramp 1).length ∧
      32 + 0 = (ramp 32).length ∧ 0 + 0 = (ramp 0).length := by decide +kernel

theorem witness_ShortWrittenOut : (ramp 191).length ≤ 191 ∧ (ramp 0).length ≤ 191 := by decide +kernel

theorem witness_ResetMeetsTheInvariant : (small 0 0 3 4).mem.wf = true := by decide

/-- A Small context that is as full as it gets, and a Large one, meet the invariant. -/
theorem inv_small : Inv { small 0 0 191 4 with inbox := [.command 0 ⟨2, 0, 0, 0x1000, 1⟩] } :=
  by
  refine ⟨by decide, rfl, fun c hc => ?_⟩
  rw [List.mem_singleton.mp hc]
  exact ⟨by decide, fun _ => ⟨fun h => absurd h (by decide), fun _ => rfl, fun _ => rfl⟩⟩

theorem inv_large : Inv { large 0xc0 false 95 4 with inbox := [.command 0 ⟨3, 0, 0, 0, 0⟩] } :=
  by
  refine ⟨by decide, rfl, fun c hc => ?_⟩
  rw [List.mem_singleton.mp hc]
  exact ⟨by decide, fun _ => ⟨fun _ => by decide, fun _ => by decide, fun h => absurd h (by decide)⟩⟩

theorem witness_StepKeepsTheInvariant :
    Inv { small 0 0 191 4 with inbox := [.command 0 ⟨2, 0, 0, 0x1000, 1⟩] } ∧
      ∃ t, step { small 0 0 191 4 with inbox := [.command 0 ⟨2, 0, 0, 0x1000, 1⟩] } = .next t ∧
        t.response = some ⟨0, 0, 0⟩ := ⟨inv_small, next_of_answers _ _ _ _ (by decide +kernel)⟩

theorem witness_StepNeverStops : Inv { large 0xc0 false 95 4 with inbox := [.command 0 ⟨3, 0, 0, 0, 0⟩] } := inv_large

end Sys2Proof.Tests
end

section
/-! The step as the scope's statements see it (spec/00_scope.md R8, R9): what a step with a descriptor next is, and what every
step keeps of the block's shape. -/

namespace Sys2Proof.Machine

/-! ### A step that takes a descriptor -/

/-- With a descriptor next, a step is processing it with the event consumed. -/
theorem step_command (s : State) (k : Nat) (d : Descriptor) (rest : List HostEvent) (h : s.inbox = .command k d :: rest) :
    step s = processOn k d { s with inbox := rest } := by
  rw [step, h]

theorem processDescriptor_of_decode (d : Descriptor) (s : State) (i : Instr) (h : decode d s.config = .ok i) :
    processDescriptor d s = exec i s := by
  rw [processDescriptor, h]

/-- A command that is refused with its context in place is refused on it. -/
theorem processOn_refused (k : Nat) (d : Descriptor) (s : State) (r : Refusal) (hk : k ≤ s.others.length)
    (h : processDescriptor d (swapContext k s) = .refused r) : processOn k d s = .refused r := by
  rw [processOn, if_pos hk, h]

/-- Settles O6: a step with a descriptor next is `processOn` of it, and each clause is what that does for context 0, for a
context of the block, and for a number without one. -/
theorem stepRunsTheDecodedCommand : Obligations.StepRunsTheDecodedCommand := by
  intro s k d rest hin
  rw [step_command s k d rest hin]
  refine ⟨?_, fun hk i hi => ?_, fun hk => processOn_absent k d _ hk⟩
  · rintro rfl
    rw [processOn_zero]
    exact ⟨rfl, fun i hi => processDescriptor_of_decode d _ i hi⟩
  · have hrun := processDescriptor_of_decode d (swapContext k { s with inbox := rest }) i
      (by rw [swapContext_config]; exact hi)
    exact ⟨fun t ht => processOn_next k d _ t hk (hrun.trans ht), fun f hf => processOn_refused k d _ f hk (hrun.trans hf)⟩

/-! ### The configuration and the number of contexts -/

@[simp] theorem unspecifiedContexts_length (P : Params) (n k : Nat) : (unspecifiedContexts P n k).length = n := by
  induction n generalizing k with
  | zero => rfl
  | succ n ih => rw [unspecifiedContexts, List.length_cons, ih]

/-- A step keeps the number of contexts, but that a reset makes those of the configuration. -/
theorem step_others_length (s t : State) (h : step s = .next t) :
    t.others.length = s.others.length ∨ t.others.length = s.config.contexts - 1 := by
  rcases step_cases s with ⟨_, e⟩ | ⟨k, d, rest, _, e⟩ | ⟨a, v, rest, _, e⟩ | ⟨rest, _, e⟩ <;> rw [e] at h
  · cases h; exact .inl rfl
  · obtain ⟨_, hlen, _⟩ := processOn_sameOutside k d _ t h
    exact .inl hlen
  · cases h; exact .inl rfl
  · cases h; exact .inr (by rw [resetBlock_others, unspecifiedContexts_length])

/-- Settles O9: the frame of a step, by its four kinds of event, and the default configuration field by field. -/
theorem configurationIsTheDefaultAndFixed : Obligations.ConfigurationIsTheDefaultAndFixed :=
  ⟨fun s t h => ⟨step_config s t h, step_others_length s t h⟩,
    rfl, rfl, rfl,
    params_K, rfl, params_byteOrder, params_rotDir, params_addressWidth, params_countWidth, params_contexts,
    endWords_get, shortMixWords_get, shortEndWords_get, mixWords_get,
    params_beforeMix, params_afterMix, params_tailWords⟩

end Sys2Proof.Machine
end

section
/-! The context over time (spec/10_state.md R24 to R36): what the host's own events do, what the fold loop makes of the count and
the flag, what a command can do to its context, and that a context holds the stream passed to it. -/

namespace Sys2Proof.Machine

/-! ### A read after a write -/

/-- A canonical memory lists no address below the one it starts at. -/
theorem Memory.read_of_lt (m : Memory) (P : Params) (lo x : Nat) (hm : Memory.wfFrom lo m P = true) (hx : x < lo) :
    m.read x = Memory.background := by
  induction m generalizing lo with
  | nil => rfl
  | cons c m ih =>
    obtain ⟨k, v⟩ := c
    obtain ⟨hlo, -, -, hrest⟩ := (Memory.wfFrom_cons lo k v m P).mp hm
    rw [Memory.read_cons, if_neg (by omega), ih (k + 1) hrest (by omega)]

/-- A read after a write on a canonical memory: the byte written at its address, and what was there before elsewhere. -/
theorem Memory.read_write_from (m : Memory) (P : Params) (lo a x : Nat) (b : Byte) (hm : Memory.wfFrom lo m P = true) :
    (m.write a b).read x = if x = a then b else m.read x := by
  induction m generalizing lo with
  | nil =>
    by_cases hb : b = Memory.background
    · simp [Memory.write, hb]
    · simp [Memory.write, hb, eq_comm]
  | cons c m ih =>
    obtain ⟨k, v⟩ := c
    obtain ⟨-, -, -, hrest⟩ := (Memory.wfFrom_cons lo k v m P).mp hm
    have hbelow : ∀ y, y ≤ k → Memory.read m y = Memory.background := fun y hy =>
      Memory.read_of_lt m P (k + 1) y hrest (by omega)
    rw [Memory.write]
    by_cases hlt : a < k
    · rw [if_pos hlt]
      by_cases hb : b = Memory.background
      · rw [if_pos hb]
        split
        · rw [Memory.read_cons, if_neg (by omega), hbelow x (by omega), hb]
        · rfl
      · rw [if_neg hb, Memory.read_cons]
        simp only [eq_comm]
    · rw [if_neg hlt]
      by_cases hak : a = k
      · subst hak
        rw [if_pos rfl]
        by_cases hb : b = Memory.background
        · rw [if_pos hb, Memory.read_cons]
          split
          · rw [hbelow x (by omega), hb]
          · rw [if_neg (by omega)]
        · rw [if_neg hb, Memory.read_cons, Memory.read_cons]
          by_cases hx : x = a
          · rw [if_pos hx, if_pos hx.symm]
          · rw [if_neg hx, if_neg (Ne.symm hx), if_neg (Ne.symm hx)]
      · rw [if_neg hak, Memory.read_cons, Memory.read_cons, ih (k + 1) hrest]
        by_cases hx : k = x
        · rw [if_pos hx, if_neg (by omega), if_pos hx]
        · rw [if_neg hx, if_neg hx]

theorem Memory.read_write (m : Memory) (P : Params) (a x : Nat) (b : Byte) (hm : m.wf P = true) :
    (m.write a b).read x = if x = a then b else m.read x :=
  Memory.read_write_from m P 0 a x b hm

/-! ### Contexts that nothing has initialised -/

theorem mem_unspecifiedContexts (P : Params) (n k : Nat) (c : Context) (h : c ∈ unspecifiedContexts P n k) :
    ∃ j, c = Context.unspecified P j := by
  induction n generalizing k with
  | zero => cases h
  | succ n ih =>
    rcases List.mem_cons.mp h with rfl | h
    · exact ⟨k, rfl⟩
    · exact ih (k + 1) h

/-- Every context of a block in the state of reset is unspecified, whatever its draw. -/
theorem mem_unspecified_cons (P : Params) (j n k : Nat) (c : Context)
    (h : c ∈ Context.unspecified P j :: unspecifiedContexts P n k) : ∃ i, c = Context.unspecified P i := by
  rcases List.mem_cons.mp h with rfl | h
  · exact ⟨j, rfl⟩
  · exact mem_unspecifiedContexts P n k c h

/-- An unspecified context meets what R31 asks of it: its count has `CW` bits and it is not initialised. -/
theorem contextInv_unspecified (P : Params) (j : Nat) : ContextInv P (Context.unspecified P j) :=
  ⟨lowBits_lt P.countWidth _, fun h => nomatch h⟩

theorem resetBlock_contexts (s : State) :
    ∀ c ∈ (resetBlock s).toContext :: (resetBlock s).others, ∃ j, c = Context.unspecified s.config j :=
  fun c hc => mem_unspecified_cons _ _ _ _ c hc

theorem resetAt_contexts (P : Params) :
    ∀ c ∈ (State.resetAt P).toContext :: (State.resetAt P).others, ∃ j, c = Context.unspecified P j :=
  fun c hc => mem_unspecified_cons _ _ _ _ c hc

/-- Settles O7: a step without a command, by the kind of the event; a write is `Memory.read_write` at the address cut to `AW`
bits. -/
theorem stepTakesHostEvents : Obligations.StepTakesHostEvents := by
  refine ⟨fun s h => by rw [step, h], fun s addr v rest h hm => ?_, fun s rest h => ?_⟩
  · refine ⟨hostWrite addr v { s with inbox := rest }, by rw [step, h], rfl, fun a => ?_⟩
    rw [hostWrite_mem, lowBits_toNat]
    exact Memory.read_write s.mem s.config _ a v hm
  · refine ⟨resetBlock { s with inbox := rest }, by rw [step, h], fun c hc => ?_, rfl, rfl, rfl, rfl, rfl⟩
    obtain ⟨j, rfl⟩ := resetBlock_contexts _ c hc
    rfl

/-- A reset of a block with canonical memory gives the invariant. -/
theorem inv_resetBlock (s : State) (hm : s.mem.wf s.config = true) : Inv (resetBlock s) where
  memory := hm
  number := unspecifiedContexts_length _ _ _
  contexts c hc := by
    obtain ⟨j, rfl⟩ := resetBlock_contexts s c hc
    exact contextInv_unspecified _ j

theorem inv_resetAt (P : Params) : Inv (State.resetAt P) where
  memory := Memory.wf_nil P
  number := unspecifiedContexts_length _ _ _
  contexts c hc := by
    obtain ⟨j, rfl⟩ := resetAt_contexts P c hc
    exact contextInv_unspecified _ j

/-- Settles O58: every context after reset, or a reset event, is an unspecified one, and such a context meets the invariant. -/
theorem resetMeetsTheInvariant : Obligations.ResetMeetsTheInvariant := by
  refine ⟨inv_resetAt params, rfl, fun P => ⟨inv_resetAt P, rfl, fun c hc => ?_⟩, inv_resetBlock⟩
  obtain ⟨j, rfl⟩ := resetAt_contexts P c hc
  rfl

/-! ### One-shot commands and FINALIZE -/

/-- Fetching a message reads the memory, the refused regions and the configuration. -/
theorem fetchMessage_congr (ptr len : Word) (s u : State) (hmem : u.mem = s.mem) (hun : u.unreadable = s.unreadable)
    (hcfg : u.config = s.config) : fetchMessage ptr len u = fetchMessage ptr len s := by
  rw [fetchMessage, fetchMessage, State.rangeReadable_congr s u hun, hmem, hcfg]

/-- A one-shot command answers a response that depends on what it fetches, and changes nothing else. -/
theorem oneShot_answers (ptr len : Word) (answer : List Byte → Response) (s u : State)
    (hfetch : fetchMessage ptr len u = fetchMessage ptr len s) :
    ∃ r, oneShot ptr len answer s = .next { s with response := some r } ∧
      oneShot ptr len answer u = .next { u with response := some r } := by
  rw [oneShot, oneShot, hfetch]
  cases fetchMessage ptr len s with
  | error f => exact ⟨_, raise_eq f s, raise_eq f u⟩
  | ok M => exact ⟨_, respond_eq _ s, respond_eq _ u⟩

/-- FINALIZE on a context that carries less than a stripe while Large answers, and changes nothing but the response. -/
theorem execFinalize_answers (s : State) (h : s.large = true → s.clen.val < 96) :
    ∃ r, execFinalize s = .next { s with response := some r } := by
  rcases execFinalize_cases s with ⟨_, e⟩ | ⟨_, _, e⟩ | ⟨_, _, _, e⟩ | ⟨_, hl, hc, _⟩
  · exact ⟨_, e⟩
  · exact ⟨_, e⟩
  · exact ⟨_, e⟩
  · exact absurd (h hl) (by omega)

/-- So does every command that is neither INIT nor UPDATE. -/
theorem exec_answers (i : Instr) (s : State) (hinit : ∀ a b, i ≠ .init a b) (hupd : ∀ p n, i ≠ .update p n)
    (h : s.large = true → s.clen.val < 96) : ∃ r, exec i s = .next { s with response := some r } := by
  by_cases hfin : i = .finalize
  · subst hfin
    exact execFinalize_answers s h
  · have hctx : ¬ NeedsContext i := fun hc => hc.elim hfin fun ⟨p, n, hi⟩ => hupd p n hi
    obtain ⟨ptr, len, answer, -, -, hexec⟩ := exec_eq_oneShot i hinit hctx
    obtain ⟨r, hr, -⟩ := oneShot_answers ptr len (answer s.config) s s rfl
    exact ⟨r, (hexec s).trans hr⟩

/-- Settles O29: of the ways a command can answer, those left without INIT and UPDATE set the response alone; and what a
one-shot command fetches is the same in both states. -/
theorem onlyInitAndUpdateWriteTheContext : Obligations.OnlyInitAndUpdateWriteTheContext := by
  refine ⟨fun i s t hinit hupd h => ?_, fun i s u hinit hctx hmem hun hcfg => ?_⟩
  · rcases exec_next_cases i s t h with ⟨a, b, hi, _⟩ | ⟨_, _, rfl⟩ | ⟨_, _, _, _, _, rfl⟩ | ⟨_, _, _, _, _, _, _, rfl⟩ |
      ⟨p, n, hi, _⟩ | ⟨_, _, _, _, _, _, _, _, rfl⟩ | ⟨p, hi, _⟩ | ⟨p, n, hi, _⟩ | ⟨_, _, _, _, rfl⟩
    · exact absurd hi (hinit a b)
    · rfl
    · rfl
    · rfl
    · exact absurd hi (hupd p n)
    · rfl
    · exact absurd hi (hupd p 0)
    · exact absurd hi (hupd p n)
    · rfl
  · obtain ⟨ptr, len, answer, -, -, hexec⟩ := exec_eq_oneShot i hinit hctx
    have hu := hexec u
    rw [hcfg] at hu
    rw [hexec s, hu]
    exact oneShot_answers ptr len _ s u (fetchMessage_congr ptr len s u hmem hun hcfg)

/-! ### The count and the flag after a fold -/

/-- The count after the fold loop (R144, R145): the true sum modulo `2^CW`, once the loop turns at all. -/
theorem foldStripes_pcnt (n : Nat) (S : List Byte) (s : State) :
    (foldStripes n S s).pcnt.toNat =
      if n = 0 then s.pcnt.toNat else (s.pcnt.toNat + 96 * n) % 2 ^ s.config.countWidth.val := by
  induction n generalizing S s with
  | zero => rfl
  | succ n ih =>
    rw [foldStripes_succ, ih, foldStripe_pcnt, foldStripe_config, add96_fst, if_neg (Nat.succ_ne_zero n), Nat.mod_add_mod,
      show s.pcnt.toNat + 96 + 96 * n = s.pcnt.toNat + 96 * (n + 1) by omega]
    split
    · next hn => rw [hn]
    · rfl

/-- The flag after the fold loop (R145): set before, or the true sum has reached `2^CW` on some turn. -/
theorem foldStripes_ovf (n : Nat) (S : List Byte) (s : State) :
    (foldStripes n S s).ovf = true ↔
      s.ovf = true ∨ (0 < n ∧ 2 ^ s.config.countWidth.val ≤ s.pcnt.toNat + 96 * n) := by
  induction n generalizing S s with
  | zero => simp
  | succ n ih =>
    rw [foldStripes_succ, ih, foldStripe_ovf, foldStripe_pcnt, foldStripe_config, add96_snd, add96_fst]
    by_cases h : 2 ^ s.config.countWidth.val ≤ s.pcnt.toNat + 96
    · exact iff_of_true (.inl (.inr h)) (.inr ⟨by omega, by omega⟩)
    · rw [Nat.mod_eq_of_lt (by omega), or_assoc]
      refine or_congr_right ?_
      omega

theorem isLarge_iff_toNat (c : Context) : c.large = true ↔ c.ovf = true ∨ c.pcnt.toNat ≠ 0 :=
  (isLarge_iff c).trans (or_congr_right BitVec.toNat_ne_iff_ne.symm)

section
variable (M : List Byte) (s : State)

theorem foldChunk_ovf_of_ovf (h : s.ovf = true) : (foldChunk M s).ovf = true := by
  rw [foldChunk_ovf, foldStripes_ovf]
  exact .inl h

/-- A fold leaves the context Large when it was, or when it folds a stripe at all (R140). -/
theorem foldChunk_large (h : s.large = true ∨ 96 ≤ s.clen.val + M.length) : (foldChunk M s).large = true := by
  have hlen : (s.carried ++ M).length = s.clen.val + M.length := by rw [List.length_append, carried_length]
  have hpcnt := foldStripes_pcnt ((s.carried ++ M).length / 96) (s.carried ++ M) s
  rw [isLarge_iff_toNat, foldChunk_ovf, foldChunk_pcnt, foldStripes_ovf, hpcnt, hlen]
  by_cases hn : (s.clen.val + M.length) / 96 = 0
  · rw [if_pos hn]
    exact ((isLarge_iff_toNat s.toContext).mp (h.resolve_right (by omega))).imp_left .inl
  · rw [if_neg hn]
    by_cases hov : 2 ^ s.config.countWidth.val ≤ s.pcnt.toNat + 96 * ((s.clen.val + M.length) / 96)
    · exact .inl (.inr ⟨by omega, hov⟩)
    · rw [Nat.mod_eq_of_lt (by omega)]
      exact .inr (by omega)

end

/-! ### What a command can do to its context -/

/-- The context that INIT leaves (R141). -/
def Context.seeded (P : Params) (seed0 seed1 : Word) (c : Context) : Context :=
  { c with acc := seedAcc seed0 seed1 P, pcnt := 0, clen := 0, ovf := false, inited := true }

/-- A command that answers seeds its context, leaves it, loses it to a refused read, or absorbs a message into it. -/
theorem exec_context_cases (i : Instr) (s t : State) (h : exec i s = .next t) :
    (∃ a b, i = .init a b ∧ t.toContext = s.toContext.seeded s.config a b) ∨
    t.toContext = s.toContext ∨
    (s.inited = true ∧ t.toContext = Context.unspecified s.config s.draws) ∨
    (s.inited = true ∧ ∃ M : List Byte, t.toContext = (absorbChunk M s).toContext) := by
  rcases exec_next_cases i s t h with ⟨a, b, hi, rfl⟩ | ⟨_, _, rfl⟩ | ⟨_, _, _, _, _, rfl⟩ | ⟨_, _, _, _, _, _, _, rfl⟩ |
    ⟨_, _, _, hin, _, _, rfl⟩ | ⟨_, _, _, _, _, _, _, _, rfl⟩ | ⟨_, _, _, rfl⟩ | ⟨p, n, _, hin, _, _, rfl⟩ |
    ⟨_, _, _, _, rfl⟩
  · exact .inl ⟨a, b, hi, rfl⟩
  · exact .inr (.inl rfl)
  · exact .inr (.inl rfl)
  · exact .inr (.inl rfl)
  · exact .inr (.inr (.inl ⟨hin, rfl⟩))
  · exact .inr (.inl rfl)
  · exact .inr (.inl rfl)
  · exact .inr (.inr (.inr ⟨hin, message s p n, rfl⟩))
  · exact .inr (.inl rfl)

/-- What holds of a context and of what absorbing a message into it leaves, a command other than INIT keeps, unless a refused
read takes the context away. -/
theorem exec_keeps (Q : Context → Prop) (i : Instr) (s t : State) (hinit : ∀ a b, i ≠ .init a b)
    (h : exec i s = .next t) (hs : Q s.toContext) (habsorb : ∀ M, Q (absorbChunk M s).toContext) :
    Q t.toContext ∨ (s.inited = true ∧ t.inited = false) := by
  rcases exec_context_cases i s t h with ⟨a, b, hi, _⟩ | ht | ⟨hin, ht⟩ | ⟨_, M, ht⟩
  · exact absurd hi (hinit a b)
  · exact .inl (ht ▸ hs)
  · exact .inr ⟨hin, by rw [ht]; rfl⟩
  · exact .inl (ht ▸ habsorb M)

theorem absorbChunk_ovf_of_ovf (M : List Byte) (s : State) (h : s.ovf = true) : (absorbChunk M s).ovf = true := by
  rcases absorbChunk_cases M s with ⟨_, _, e⟩ | ⟨_, e⟩ <;> rw [e]
  · exact h
  · exact foldChunk_ovf_of_ovf M s h

theorem absorbChunk_large_of_large (M : List Byte) (s : State) (h : s.large = true) : (absorbChunk M s).large = true := by
  rcases absorbChunk_cases M s with ⟨_, _, e⟩ | ⟨_, e⟩ <;> rw [e]
  · exact h
  · exact foldChunk_large M s (.inl h)

/-- Settles O24: absorbing a message keeps a set flag, and a set flag is the first half of Large. -/
theorem overflowFlagIsSticky : Obligations.OverflowFlagIsSticky :=
  ⟨fun i s t hinit hovf h =>
    exec_keeps (fun c => c.ovf = true) i s t hinit h hovf fun M => absorbChunk_ovf_of_ovf M s hovf,
   fun s hovf => (isLarge_iff s.toContext).mpr (.inl hovf)⟩

/-- Settles O26: absorbing a message keeps Large, by an append or by a fold. -/
theorem largeIsOneDirectional : Obligations.LargeIsOneDirectional := fun i s t hinit hlarge h =>
  exec_keeps (fun c => c.large = true) i s t hinit h hlarge fun M => absorbChunk_large_of_large M s hlarge

/-! ### The invariant -/

@[simp] theorem seedAcc_get_zero (s0 s1 : Word) (P : Params) : (seedAcc s0 s1 P).get 0 = s0 := by
  simp [seedAcc, Vector.get_eq_getElem]

@[simp] theorem seedAcc_get_one (s0 s1 : Word) (P : Params) : (seedAcc s0 s1 P).get 1 = s1 := by
  simp [seedAcc, Vector.get_eq_getElem]

theorem contextInv_seeded (P : Params) (a b : Word) (c : Context) : ContextInv P (c.seeded P a b) :=
  ⟨Nat.two_pow_pos _, fun _ =>
    { carry_lt_stripe := fun _ => Nat.succ_pos 95
      count_multiple := fun _ => rfl
      small_seeded := fun _ => by simp [Context.seeded] }⟩

/-- An append changes the carry of a Small context only. -/
theorem contextInv_appendChunk (M : List Byte) (s : State) (hsmall : s.small = true) (h : ContextInv s.config s.toContext) :
    ContextInv s.config (appendChunk M s).toContext := by
  obtain ⟨hcount, hok⟩ := h
  exact ⟨hcount, fun hin =>
    { carry_lt_stripe := fun hl => absurd hl ((small_iff_not_large s.toContext).mp hsmall)
      count_multiple := (hok hin).count_multiple
      small_seeded := (hok hin).small_seeded }⟩

/-- A fold leaves a Large context, whose count gains a multiple of 96. -/
theorem contextInv_foldChunk (M : List Byte) (s : State) (hfold : s.large = true ∨ 192 ≤ s.clen.val + M.length)
    (h : ContextInv s.config s.toContext) : ContextInv s.config (foldChunk M s).toContext := by
  obtain ⟨hcount, hok⟩ := h
  have hpcnt := foldStripes_pcnt ((s.carried ++ M).length / 96) (s.carried ++ M) s
  rw [← foldChunk_pcnt] at hpcnt
  have hovf := foldStripes_ovf ((s.carried ++ M).length / 96) (s.carried ++ M) s
  rw [← foldChunk_ovf] at hovf
  refine ⟨?_, fun hin => ⟨fun _ => ?_, fun hv => ?_, fun hsmall => ?_⟩⟩
  · rw [hpcnt]
    split
    · exact hcount
    · exact Nat.mod_lt _ (Nat.two_pow_pos _)
  · rw [clen_foldChunk]
    exact Nat.mod_lt _ (by decide)
  · rw [hv] at hovf
    obtain ⟨hv0, hno⟩ := not_or.mp (mt hovf.mpr Bool.false_ne_true)
    have hmul := (hok (by rwa [foldChunk_inited] at hin)).count_multiple (Bool.not_eq_true _ ▸ hv0)
    rw [hpcnt]
    split
    · exact hmul
    · next hn =>
      have hlt : s.pcnt.toNat + 96 * ((s.carried ++ M).length / 96) < 2 ^ s.config.countWidth.val :=
        Nat.lt_of_not_le fun hle => hno ⟨Nat.pos_of_ne_zero hn, hle⟩
      rw [Nat.mod_eq_of_lt hlt, Nat.add_mul_mod_self_left]
      exact hmul
  · exact absurd (foldChunk_large M s (hfold.imp_right (by omega))) ((small_iff_not_large _).mp hsmall)

theorem contextInv_absorbChunk (M : List Byte) (s : State) (h : ContextInv s.config s.toContext) :
    ContextInv s.config (absorbChunk M s).toContext := by
  rcases absorbChunk_cases M s with ⟨hsmall, _, e⟩ | ⟨hfold, e⟩ <;> rw [e]
  · exact contextInv_appendChunk M s hsmall h
  · exact contextInv_foldChunk M s hfold h

/-- A command keeps what R31 asks of its context. -/
theorem exec_contextInv (i : Instr) (s t : State) (hexec : exec i s = .next t) (h : ContextInv s.config s.toContext) :
    ContextInv s.config t.toContext := by
  rcases exec_context_cases i s t hexec with ⟨a, b, _, ht⟩ | ht | ⟨_, ht⟩ | ⟨_, M, ht⟩ <;> rw [ht]
  · exact contextInv_seeded s.config a b s.toContext
  · exact h
  · exact contextInv_unspecified s.config s.draws
  · exact contextInv_absorbChunk M s h

/-- A descriptor processed in a state with the invariant leaves it, by the frame and by what it does to the context. -/
theorem inv_processDescriptor (d : Descriptor) (s t : State) (h : Inv s) (ht : processDescriptor d s = .next t) : Inv t := by
  obtain ⟨hcfg, hothers, hmem, -, -⟩ := processDescriptor_frame d s t ht
  have hctx : ContextInv s.config t.toContext := by
    have hs := h.contexts s.toContext List.mem_cons_self
    rcases processDescriptor_cases d s with ⟨_, _, e⟩ | ⟨i, _, e⟩ <;> rw [e] at ht
    · cases ht
      exact hs
    · exact exec_contextInv i s t ht hs
  refine ⟨by rw [hmem, hcfg]; exact h.memory, by rw [hothers, hcfg]; exact h.number, fun c hc => ?_⟩
  rw [hcfg]
  rcases List.mem_cons.mp hc with rfl | hc
  · exact hctx
  · exact h.contexts c (List.mem_cons_of_mem _ (hothers ▸ hc))

/-- The exchange of contexts makes no new one. -/
theorem mem_contexts_of_swapContext (k : Nat) (s : State) (c : Context)
    (h : c ∈ (swapContext k s).toContext :: (swapContext k s).others) : c ∈ s.toContext :: s.others := by
  cases k with
  | zero => exact h
  | succ j =>
    cases hj : s.others[j]? with
    | none => rwa [swapContext_none j s hj] at h
    | some d =>
      rw [swapContext_succ j s d hj] at h
      rcases List.mem_cons.mp h with rfl | h
      · exact List.mem_cons_of_mem _ (List.mem_of_getElem? hj)
      · rcases List.mem_or_eq_of_mem_set h with h | rfl
        · exact List.mem_cons_of_mem _ h
        · exact List.mem_cons_self

theorem inv_swapContext (k : Nat) (s : State) (h : Inv s) : Inv (swapContext k s) where
  memory := by rw [swapContext_mem, swapContext_config]; exact h.memory
  number := by rw [swapContext_length, swapContext_config]; exact h.number
  contexts c hc := by rw [swapContext_config]; exact h.contexts c (mem_contexts_of_swapContext k s c hc)

/-- A command for any context number keeps the invariant. -/
theorem inv_processOn (k : Nat) (d : Descriptor) (s t : State) (h : Inv s) (ht : processOn k d s = .next t) : Inv t := by
  rcases processOn_next_cases k d s t ht with ⟨_, rfl⟩ | ⟨_, u, hu, rfl⟩
  · exact ⟨h.memory, h.number, h.contexts⟩
  · exact inv_swapContext k u (inv_processDescriptor d _ u (inv_swapContext k s h) hu)

/-- Settles O59: the invariant through each of the four kinds of step. -/
theorem stepKeepsTheInvariant : Obligations.StepKeepsTheInvariant := by
  intro s t h ht
  have hrest : ∀ rest, Inv { s with inbox := rest } := fun _ => ⟨h.memory, h.number, h.contexts⟩
  rcases step_cases s with ⟨_, e⟩ | ⟨k, d, rest, _, e⟩ | ⟨a, v, rest, _, e⟩ | ⟨rest, _, e⟩ <;> rw [e] at ht
  · cases ht
    exact h
  · exact inv_processOn k d _ t (hrest rest) ht
  · cases ht
    exact ⟨hostWrite_wf a v _ h.memory, h.number, h.contexts⟩
  · cases ht
    exact inv_resetBlock _ h.memory

/-! ### Absorbing stripes -/

/-- Only the stripes that are absorbed matter. -/
theorem absorbStripes_take (n k : Nat) (A : Vector Word 12) (Y : List Byte) (P : Params) (hk : 96 * n ≤ k) :
    absorbStripes n A (Y.take k) P = absorbStripes n A Y P := by
  induction n generalizing A Y k with
  | zero => rfl
  | succ n ih =>
    rw [absorbStripes, absorbStripes, List.take_take, List.drop_take, ih (k - stripe) _ _ (by simp only [stripe]; omega),
      Nat.min_eq_left (by simp only [stripe]; omega)]

/-- Absorbing goes on where it stopped (R134). -/
theorem absorbStripes_add (m n : Nat) (A : Vector Word 12) (Y : List Byte) (P : Params) :
    absorbStripes (m + n) A Y P = absorbStripes n (absorbStripes m A Y P) (Y.drop (96 * m)) P := by
  induction m generalizing A Y with
  | zero => rw [Nat.zero_add]; rfl
  | succ m ih =>
    rw [Nat.add_right_comm, absorbStripes, absorbStripes, ih, List.drop_drop,
      show stripe + 96 * m = 96 * (m + 1) by simp only [stripe]; omega]

/-- `Absorb` of the first `n` stripes of a sequence. -/
theorem absorb_take (n : Nat) (A : Vector Word 12) (Y : List Byte) (P : Params) (hn : 96 * n ≤ Y.length) :
    absorb A (Y.take (96 * n)) P = absorbStripes n A Y P := by
  rw [absorb, List.length_take, Nat.min_eq_left hn, Nat.mul_div_cancel_left n (by decide : 0 < stripe)]
  exact absorbStripes_take n _ A Y P (Nat.le_refl _)

/-- Bytes that follow the absorbed stripes change nothing. -/
theorem absorbStripes_append (n : Nat) (A : Vector Word 12) (Y Z : List Byte) (P : Params) (hn : 96 * n ≤ Y.length) :
    absorbStripes n A (Y ++ Z) P = absorbStripes n A Y P := by
  rw [← absorbStripes_take n _ A (Y ++ Z) P (Nat.le_refl _), List.take_append_of_le_length hn,
    absorbStripes_take n _ A Y P (Nat.le_refl _)]

/-! ### The stream that a context holds -/

/-- The context has folded the first `m` stripes of the stream `T` and carries the rest: what R31 items 2 and 3 have in common,
with `m = 0` in item 2. -/
structure HasFolded (P : Params) (s0 s1 : Word) (T : List Byte) (m : Nat) (c : Context) : Prop where
  length_eq : T.length = 96 * m + c.clen.val
  count : c.pcnt.toNat = 96 * m % 2 ^ P.countWidth.val
  flag : c.ovf = true ↔ 2 ^ P.countWidth.val ≤ 96 * m
  acc_eq : c.acc = absorbStripes m (seedAcc s0 s1 P) T P
  carried_eq : c.carried = T.drop (96 * m)

section
variable {P : Params} {s0 s1 : Word} {T : List Byte} {m : Nat} {c : Context}

/-- A context is Large exactly when it has folded something, also when the count has come round to 0. -/
theorem HasFolded.large_iff (h : HasFolded P s0 s1 T m c) : c.large = true ↔ 0 < m := by
  have hpos : 0 < 2 ^ P.countWidth.val := Nat.two_pow_pos _
  rw [isLarge_iff_toNat, h.flag, h.count]
  by_cases hm : 2 ^ P.countWidth.val ≤ 96 * m
  · exact iff_of_true (.inl hm) (by omega)
  · rw [Nat.mod_eq_of_lt (by omega)]
    omega

theorem HasFolded.small_iff (h : HasFolded P s0 s1 T m c) : c.small = true ↔ m = 0 := by
  rw [small_iff_not_large, h.large_iff]
  omega

/-- R31 item 4: without overflow the count and the carry add up to the stream. -/
theorem HasFolded.count_add_clen (h : HasFolded P s0 s1 T m c) (hovf : c.ovf = false) :
    c.pcnt.toNat + c.clen.val = T.length := by
  have hlt : ¬ 2 ^ P.countWidth.val ≤ 96 * m := fun hm => by simp [h.flag.mpr hm] at hovf
  rw [h.count, Nat.mod_eq_of_lt (by omega), h.length_eq]

theorem HasFolded.holdsStream (h : HasFolded P s0 s1 T m c) (hin : c.inited = true) (hcarry : 0 < m → c.clen.val ≤ 95)
    (hm : m = 0 ↔ T.length < 192) : HoldsStream P s0 s1 T c where
  initialised := hin
  small_state hsmall := by
    obtain rfl := h.small_iff.mp hsmall
    obtain ⟨hovf, hpcnt⟩ := (isSmall_iff c).mp hsmall
    exact ⟨hpcnt, hovf, h.acc_eq, h.carried_eq, by rw [h.length_eq]; omega⟩
  large_state hlarge := by
    have hpos := h.large_iff.mp hlarge
    refine ⟨hcarry hpos, 96 * m, by omega, Nat.mul_mod_right 96 m, h.count, h.flag, h.length_eq, ?_, h.carried_eq⟩
    rw [absorb_take m _ T P (by rw [h.length_eq]; omega), h.acc_eq]
  small_iff := h.small_iff.trans hm

theorem HoldsStream.exists_hasFolded (h : HoldsStream P s0 s1 T c) : ∃ m, HasFolded P s0 s1 T m c := by
  by_cases hs : c.small = true
  · obtain ⟨hpcnt, hovf, hacc, hcarried, hlen⟩ := h.small_state hs
    exact ⟨0, by omega, by simp [hpcnt], by simp [hovf], hacc, hcarried⟩
  · have hlarge : c.large = true := of_not_not (mt (small_iff_not_large c).mpr hs)
    obtain ⟨-, n, -, hmul, hcount, hflag, hlen, hacc, hcarried⟩ := h.large_state hlarge
    obtain ⟨m, rfl⟩ := Nat.dvd_of_mod_eq_zero hmul
    rw [absorb_take m _ T P (by omega)] at hacc
    exact ⟨m, hlen, hcount, hflag, hacc, hcarried⟩

end

section
variable {s0 s1 : Word} {T : List Byte} {m : Nat} {s : State} (h : HasFolded s.config s0 s1 T m s.toContext) (M : List Byte)
include h

/-- An append extends the stream and folds nothing (R143). -/
theorem hasFolded_appendChunk (hlen : s.clen.val + M.length < 192) :
    HasFolded s.config s0 s1 (T ++ M) m (appendChunk M s).toContext where
  length_eq := by rw [List.length_append, h.length_eq, clen_appendChunk M s hlen]; omega
  count := h.count
  flag := h.flag
  acc_eq := by rw [absorbStripes_append m _ T M _ (by rw [h.length_eq]; omega)]; exact h.acc_eq
  carried_eq := by
    rw [carried_appendChunk M s hlen, h.carried_eq, List.drop_append_of_le_length (by rw [h.length_eq]; omega)]

/-- A fold extends the stream and folds every whole stripe that is not folded yet (R144). -/
theorem hasFolded_foldChunk :
    HasFolded s.config s0 s1 (T ++ M) (m + (s.clen.val + M.length) / 96) (foldChunk M s).toContext := by
  have hle : 96 * m ≤ T.length := by rw [h.length_eq]; omega
  have hS : s.carried ++ M = (T ++ M).drop (96 * m) := by rw [h.carried_eq, List.drop_append_of_le_length hle]
  have hn : (s.carried ++ M).length = s.clen.val + M.length := by rw [List.length_append, carried_length]
  refine ⟨?_, ?_, ?_, ?_, ?_⟩
  · rw [List.length_append, h.length_eq, clen_foldChunk]
    omega
  · rw [foldChunk_pcnt, foldStripes_pcnt, h.count, hn, Nat.mod_add_mod, Nat.mul_add]
    split
    · next h0 => rw [h0]; rfl
    · rfl
  · rw [foldChunk_ovf, foldStripes_ovf, h.flag, h.count, hn]
    by_cases hm : 2 ^ s.config.countWidth.val ≤ 96 * m
    · exact iff_of_true (.inl hm) (by omega)
    · rw [Nat.mod_eq_of_lt (by omega)]
      omega
  · rw [foldChunk_acc, hn, hS, h.acc_eq, absorbStripes_add, absorbStripes_append m _ T M _ hle]
  · rw [carried_foldChunk, hn, hS, List.drop_drop, Nat.mul_add]

end

/-- INIT begins the empty stream. -/
theorem holdsStream_seeded (P : Params) (s0 s1 : Word) (c : Context) : HoldsStream P s0 s1 [] (c.seeded P s0 s1) := by
  have h : HasFolded P s0 s1 [] 0 (c.seeded P s0 s1) :=
    ⟨rfl, rfl, by simp [Context.seeded], rfl, by simp [Context.carried, Context.seeded]⟩
  exact h.holdsStream rfl (by omega) (by simp)

/-- Absorbing a message extends the stream by it. -/
theorem holdsStream_absorbChunk {s0 s1 : Word} {T : List Byte} {s : State} (h : HoldsStream s.config s0 s1 T s.toContext)
    (M : List Byte) : HoldsStream s.config s0 s1 (T ++ M) (absorbChunk M s).toContext := by
  obtain ⟨m, hm⟩ := h.exists_hasFolded
  have hin : (absorbChunk M s).inited = true := by rw [absorbChunk_inited]; exact h.initialised
  have hlen := hm.length_eq
  have hm0 := hm.small_iff.symm.trans h.small_iff
  rcases absorbChunk_cases M s with ⟨hsmall, hlt, e⟩ | ⟨hfold, e⟩ <;> rw [e] at hin ⊢
  · obtain rfl := hm.small_iff.mp hsmall
    refine (hasFolded_appendChunk hm M hlt).holdsStream hin (by omega) ?_
    rw [List.length_append]
    omega
  · rw [hm.large_iff] at hfold
    refine (hasFolded_foldChunk hm M).holdsStream hin (fun _ => ?_) ?_
    · rw [clen_foldChunk]
      omega
    · rw [List.length_append]
      omega

/-- An UPDATE of an initialised context with a message that can be read absorbs it; with no bytes it changes nothing. -/
theorem execUpdate_of_canRead (ptr len : Word) (s : State) (hin : s.inited = true) (hread : CanRead s ptr len) :
    (len = 0 ∧ execUpdate ptr len s = .next { s with response := some ⟨0, 0, 0⟩ }) ∨
    execUpdate ptr len s = .next { absorbChunk (message s ptr len) s with response := some ⟨0, 0, 0⟩ } := by
  obtain ⟨htop, hrefused⟩ := hread
  rcases execUpdate_cases ptr len s with ⟨h, _⟩ | ⟨_, h, e⟩ | ⟨_, h, _⟩ | ⟨_, _, h, _⟩ | ⟨_, _, _, e⟩
  · exact absurd (hin.symm.trans h) Bool.false_ne_true.symm
  · exact .inl ⟨h, e⟩
  · exact absurd h htop
  · exact absurd h hrefused
  · exact .inr e

/-- A readable UPDATE extends the stream by its message. -/
theorem execUpdate_holdsStream (s0 s1 : Word) (T : List Byte) (s : State) (ptr len : Word)
    (h : HoldsStream s.config s0 s1 T s.toContext) (hread : CanRead s ptr len) :
    ∃ t, exec (.update ptr len) s = .next t ∧ HoldsStream s.config s0 s1 (T ++ message s ptr len) t.toContext := by
  rcases execUpdate_of_canRead ptr len s h.initialised hread with ⟨rfl, e⟩ | e
  · have hM : message s ptr 0 = [] := List.eq_nil_of_length_eq_zero (message_length s ptr 0)
    exact ⟨_, e, by rw [hM, List.append_nil]; exact h⟩
  · exact ⟨_, e, holdsStream_absorbChunk h _⟩

/-- Settles O31: INIT by `holdsStream_seeded`, UPDATE by `holdsStream_absorbChunk`, every other command because it sets the
response alone, and the sum by the number of folded stripes. -/
theorem contextHoldsItsStream : Obligations.ContextHoldsItsStream := by
  refine ⟨fun s0 s1 s => ⟨_, execInit_eq s0 s1 s, rfl, holdsStream_seeded s.config s0 s1 s.toContext⟩,
    execUpdate_holdsStream, fun s0 s1 T s i h hinit hupd => ?_, fun P s0 s1 T c h hovf => ?_⟩
  · have hcarry : s.large = true → s.clen.val < 96 := fun hl => Nat.lt_succ_of_le (h.large_state hl).1
    obtain ⟨r, hr⟩ := exec_answers i s hinit hupd hcarry
    exact ⟨_, hr, h⟩
  · obtain ⟨m, hm⟩ := h.exists_hasFolded
    exact hm.count_add_clen hovf

end Sys2Proof.Machine
end

section
/-! The message memory (spec/20_memory.md R50 to R57): the canonical form, words assembled from bytes, and that a command reads
its message alone and writes nothing. -/

namespace Sys2Proof.Machine

/-! ### No command writes the memory -/

/-- Settles O38: the frame of a command. -/
theorem commandsNeverWriteMemory : Obligations.CommandsNeverWriteMemory := by
  intro i s t h
  obtain ⟨hcfg, hothers, hmem, hun, hin⟩ := exec_frame i s t h
  exact ⟨fun a => by rw [hmem], hmem, hun, hin, hcfg, hothers⟩

/-! ### What a command reads of the memory -/

/-- An outcome with the memory `m` in the next state, if there is one. -/
def outcomeWithMem (m : Memory) : Host.Outcome State Fault Refusal → Host.Outcome State Fault Refusal
  | .next t => .next { t with mem := m }
  | .fault f => .fault f
  | .refused r => .refused r

@[simp] theorem outcomeWithMem_next (m : Memory) (t : State) : outcomeWithMem m (.next t) = .next { t with mem := m } := rfl

@[simp] theorem outcomeWithMem_refused (m : Memory) (r : Refusal) : outcomeWithMem m (.refused r) = .refused r := rfl

/-- The memory `m` reads as that of `s` at every address of the message `PTR, LEN`. -/
def AgreesOnMessage (m : Memory) (s : State) (ptr len : Word) : Prop :=
  ∀ a, ptr.toNat ≤ a → a < ptr.toNat + len.toNat → m.read a = s.mem.read a

/-- Memories that agree on a message give the same fetch: its bytes, or the same fault. -/
theorem fetchMessage_of_agrees {m : Memory} {s : State} {ptr len : Word} (h : AgreesOnMessage m s ptr len) :
    fetchMessage ptr len { s with mem := m } = fetchMessage ptr len s := by
  have hbytes : m.bytes ptr.toNat len.toNat = s.mem.bytes ptr.toNat len.toNat :=
    Memory.bytes_congr _ _ _ _ _ fun i hi => h _ (by omega) (by omega)
  rw [fetchMessage, fetchMessage, State.rangeReadable_congr s { s with mem := m } rfl, hbytes]

theorem oneShot_of_agrees {m : Memory} {s : State} {ptr len : Word} (answer : List Byte → Response)
    (h : AgreesOnMessage m s ptr len) :
    oneShot ptr len answer { s with mem := m } = outcomeWithMem m (oneShot ptr len answer s) := by
  obtain ⟨r, hs, hm⟩ := oneShot_answers ptr len answer s { s with mem := m } (fetchMessage_of_agrees h)
  rw [hm, hs, outcomeWithMem_next]

theorem execUpdate_of_agrees {m : Memory} {s : State} {ptr len : Word} (h : AgreesOnMessage m s ptr len) :
    execUpdate ptr len { s with mem := m } = outcomeWithMem m (execUpdate ptr len s) := by
  rw [execUpdate, execUpdate, fetchMessage_of_agrees h]
  by_cases hin : s.inited = false
  · rw [if_pos hin, if_pos hin]; rfl
  · rw [if_neg hin, if_neg hin]
    by_cases hlen : len = 0
    · rw [if_pos hlen, if_pos hlen]; rfl
    · rw [if_neg hlen, if_neg hlen]
      cases fetchMessage ptr len s with
      | error f => cases f <;> rfl
      | ok M =>
        have habsorb : absorbChunk M { s with mem := m } =
            { absorbChunk M s with others := s.others, mem := m, inbox := s.inbox, response := s.response } :=
          absorbChunk_outside M s s.others m s.inbox s.response
        simp [habsorb]

/-- FINALIZE reads no memory: its conditions and its answers are of the context and the configuration. -/
theorem execFinalize_withMem (m : Memory) (s : State) :
    execFinalize { s with mem := m } = outcomeWithMem m (execFinalize s) := by
  rw [execFinalize, execFinalize, apply_ite (outcomeWithMem m), apply_ite (outcomeWithMem m), apply_ite (outcomeWithMem m)]
  rfl

/-- R54: with another memory that agrees on its message, if it has one, a command does the same. -/
theorem exec_of_agrees (i : Instr) (s : State) (m : Memory)
    (h : ∀ ptr len, messageOperand i = some (ptr, len) → AgreesOnMessage m s ptr len) :
    exec i { s with mem := m } = outcomeWithMem m (exec i s) := by
  cases i with
  | init a b => rfl
  | update p n => exact execUpdate_of_agrees (h p n rfl)
  | finalize => exact execFinalize_withMem m s
  | hash128 a b p n => exact oneShot_of_agrees _ (h p n rfl)
  | hash64 a p n => exact oneShot_of_agrees _ (h p n rfl)
  | hash32 a p n => exact oneShot_of_agrees _ (h p n rfl)

/-- Settles O39: `exec_of_agrees`, for either outcome. -/
theorem commandsReadOnlyTheirMessage : Obligations.CommandsReadOnlyTheirMessage := by
  intro i s m h
  rw [exec_of_agrees i s m h]
  exact ⟨fun t ht => by rw [ht, outcomeWithMem_next], fun f hf => by rw [hf, outcomeWithMem_refused]⟩

/-! ### Where a message lies -/

/-- Readable messages of one length with equal bytes are fetched alike (R53). -/
theorem fetchMessage_placement (s : State) (p q len : Word) (hp : CanRead s p len) (hq : CanRead s q len)
    (h : ∀ k, k < len.toNat → s.mem.read (p.toNat + k) = s.mem.read (q.toNat + k)) :
    fetchMessage p len s = fetchMessage q len s := by
  rw [fetchMessage_of_canRead p len s hp, fetchMessage_of_canRead q len s hq, message, message,
    Memory.bytes_congr _ _ _ _ _ h]

/-- A one-shot command uses its message operand for the fetch only. -/
theorem oneShot_of_fetchMessage_eq {s : State} {p q len : Word} (answer : List Byte → Response)
    (h : fetchMessage p len s = fetchMessage q len s) : oneShot p len answer s = oneShot q len answer s := by
  rw [oneShot, oneShot, h]

/-- So does UPDATE. -/
theorem execUpdate_of_fetchMessage_eq {s : State} {p q len : Word} (h : fetchMessage p len s = fetchMessage q len s) :
    execUpdate p len s = execUpdate q len s := by
  rw [execUpdate, execUpdate, h]

/-- Settles O40: the fetch is the same, and no command with a message uses its address for anything else. -/
theorem placementHasNoEffect : Obligations.PlacementHasNoEffect := by
  intro s p q len hp hq h
  have hfetch := fetchMessage_placement s p q len hp hq h
  exact ⟨fun _ _ => oneShot_of_fetchMessage_eq _ hfetch, fun _ => oneShot_of_fetchMessage_eq _ hfetch,
    fun _ => oneShot_of_fetchMessage_eq _ hfetch, execUpdate_of_fetchMessage_eq hfetch⟩

/-! ### The canonical form -/

/-- Settles O41: `Memory.read_write`. -/
theorem memoryReadAfterWrite : Obligations.MemoryReadAfterWrite :=
  fun m P a v hm b => Memory.read_write m P a b v hm

/-- A canonical memory reads as the background below its first address. -/
theorem Memory.read_cons_of_lt {m : Memory} {P : Params} {lo k x : Nat} {v : Byte}
    (hm : Memory.wfFrom lo ((k, v) :: m) P = true) (hx : x < k) : Memory.read ((k, v) :: m) x = Memory.background := by
  obtain ⟨-, hk, hv, hrest⟩ := (Memory.wfFrom_cons lo k v m P).mp hm
  exact Memory.read_of_lt _ P k x ((Memory.wfFrom_cons k k v m P).mpr ⟨le_rfl, hk, hv, hrest⟩) hx

/-- The first byte of a canonical memory is not the background, so a memory that reads the same there starts no higher. -/
theorem Memory.head_le {m m' : Memory} {P : Params} {lo lo' k k' : Nat} {v v' : Byte}
    (hm : Memory.wfFrom lo ((k, v) :: m) P = true) (hm' : Memory.wfFrom lo' ((k', v') :: m') P = true)
    (h : Memory.read ((k, v) :: m) k = Memory.read ((k', v') :: m') k) : k' ≤ k := by
  obtain ⟨-, -, hv, -⟩ := (Memory.wfFrom_cons lo k v m P).mp hm
  by_contra hlt
  rw [Memory.read_cons_of_lt hm' (by omega), Memory.read_cons, if_pos rfl] at h
  exact hv h

/-- A canonical memory that reads as the background everywhere lists nothing. -/
theorem Memory.eq_nil_of_read {m : Memory} {P : Params} {lo : Nat} (hm : Memory.wfFrom lo m P = true)
    (h : ∀ a, a < 2 ^ P.addressWidth.val → m.read a = Memory.background) : m = [] := by
  cases m with
  | nil => rfl
  | cons c m =>
    obtain ⟨k, v⟩ := c
    obtain ⟨-, hk, hv, -⟩ := (Memory.wfFrom_cons lo k v m P).mp hm
    exact absurd (h k hk) (by rwa [Memory.read_cons, if_pos rfl])

/-- Canonical memories that read the same are equal, from any first addresses on. -/
theorem Memory.eq_of_read_eq {m m' : Memory} {P : Params} {lo lo' : Nat} (hm : Memory.wfFrom lo m P = true)
    (hm' : Memory.wfFrom lo' m' P = true) (h : ∀ a, a < 2 ^ P.addressWidth.val → m.read a = m'.read a) : m = m' := by
  induction m generalizing m' lo lo' with
  | nil => exact (Memory.eq_nil_of_read hm' fun a ha => (h a ha).symm).symm
  | cons c m ih =>
    cases m' with
    | nil => exact Memory.eq_nil_of_read hm h
    | cons c' m' =>
      obtain ⟨k, v⟩ := c
      obtain ⟨k', v'⟩ := c'
      obtain ⟨-, hk, -, hrest⟩ := (Memory.wfFrom_cons lo k v m P).mp hm
      obtain ⟨-, hk', -, hrest'⟩ := (Memory.wfFrom_cons lo' k' v' m' P).mp hm'
      obtain rfl : k = k' :=
        Nat.le_antisymm (Memory.head_le hm' hm (h k' hk').symm) (Memory.head_le hm hm' (h k hk))
      have hv : v = v' := by simpa using h k hk
      have htail : ∀ a, a < 2 ^ P.addressWidth.val → Memory.read m a = Memory.read m' a := fun a ha => by
        by_cases hak : a ≤ k
        · rw [Memory.read_of_lt m P (k + 1) a hrest (by omega), Memory.read_of_lt m' P (k + 1) a hrest' (by omega)]
        · have hne : k ≠ a := by omega
          simpa [hne] using h a ha
      rw [hv, ih hrest hrest' htail]

/-- Settles O42: `Memory.eq_of_read_eq` from address 0. -/
theorem canonicalMemoriesAreEqual : Obligations.CanonicalMemoriesAreEqual :=
  fun _ _ _ hm hm' h => Memory.eq_of_read_eq hm hm' h

/-! ### Words assembled from bytes -/

/-- The sum of the bytes `f 0 .. f (n - 1)` in their lanes, the byte at the lowest index the least significant (R90, R91). -/
def laneSum (f : Nat → Byte) (n : Nat) : Nat := ((List.range n).map fun i => (f i).toNat * 2 ^ (8 * i)).sum

@[simp] theorem laneSum_zero (f : Nat → Byte) : laneSum f 0 = 0 := rfl

theorem laneSum_succ (f : Nat → Byte) (n : Nat) : laneSum f (n + 1) = laneSum f n + (f n).toNat * 2 ^ (8 * n) :=
  List.sum_range_succ _ n

theorem laneSum_congr {f g : Nat → Byte} {n : Nat} (h : ∀ i, i < n → f i = g i) : laneSum f n = laneSum g n := by
  induction n with
  | zero => rfl
  | succ n ih => rw [laneSum_succ, laneSum_succ, ih fun i hi => h i (by omega), h n (by omega)]

/-- The lanes of `n` bytes lie below bit `8 * n`. -/
theorem laneSum_lt (f : Nat → Byte) (n : Nat) : laneSum f n < 2 ^ (8 * n) := by
  induction n with
  | zero => exact Nat.one_pos
  | succ n ih =>
    have hbyte := (f n).isLt
    calc laneSum f (n + 1) = laneSum f n + (f n).toNat * 2 ^ (8 * n) := laneSum_succ f n
      _ < 2 ^ (8 * n) + (f n).toNat * 2 ^ (8 * n) := by omega
      _ = ((f n).toNat + 1) * 2 ^ (8 * n) := by ring
      _ ≤ 2 ^ 8 * 2 ^ (8 * n) := Nat.mul_le_mul_right _ hbyte
      _ = 2 ^ (8 * (n + 1)) := by ring

/-- The low `8 * m` bits hold the first `m` lanes. -/
theorem laneSum_mod (f : Nat → Byte) (m n : Nat) : laneSum f (m + n) % 2 ^ (8 * m) = laneSum f m := by
  induction n with
  | zero => exact Nat.mod_eq_of_lt (laneSum_lt f m)
  | succ n ih =>
    have hlane : (f (m + n)).toNat * 2 ^ (8 * (m + n)) = 2 ^ (8 * m) * ((f (m + n)).toNat * 2 ^ (8 * n)) := by ring
    rw [← Nat.add_assoc, laneSum_succ, hlane, Nat.add_mul_mod_self_left, ih]

/-- `le64` at the default byte order is the sum of eight lanes (R90). -/
theorem le64_toNat (B : List Byte) (o : Nat) : (le64 B o).toNat = laneSum (fun i => B.getD (o + i) 0) 8 := by
  have hsum : le64 B o = BitVec.ofNat 64 (laneSum (fun i => B.getD (o + i) 0) 8) := by
    simp [le64_little, byteAt, laneSum_succ]
  rw [hsum, BitVec.toNat_ofNat, Nat.mod_eq_of_lt (laneSum_lt _ 8)]

/-- `le32` at the default byte order is the sum of four lanes (R91). -/
theorem le32_toNat (B : List Byte) (o : Nat) : (le32 B o).toNat = laneSum (fun i => B.getD (o + i) 0) 4 := by
  have hsum : le32 B o = BitVec.ofNat 32 (laneSum (fun i => B.getD (o + i) 0) 4) := by
    simp [le32, byteAt, laneSum_succ]
  rw [hsum, BitVec.toNat_ofNat, Nat.mod_eq_of_lt (laneSum_lt _ 4)]

theorem Memory.getD_bytes {m : Memory} {a n i : Nat} (hi : i < n) : (m.bytes a n).getD i 0 = m.read (a + i) := by
  rw [List.getD_eq_getElem?_getD, Memory.getElem?_bytes m a n i hi, Option.getD_some]

/-- The word at offset `o` of a message is the sum of the eight bytes from its address on. -/
theorem le64_bytes_toNat {m : Memory} {a n o : Nat} (h : o + 8 ≤ n) :
    (le64 (m.bytes a n) o).toNat = laneSum (fun i => m.read (a + o + i)) 8 := by
  rw [le64_toNat]
  exact laneSum_congr fun i hi => by rw [Memory.getD_bytes (by omega), Nat.add_assoc]

theorem Memory.read64_toNat (m : Memory) (a : Nat) : (m.read64 a).toNat = laneSum (fun i => m.read (a + i)) 8 :=
  le64_bytes_toNat (le_refl 8)

theorem Memory.read32_toNat (m : Memory) (a : Nat) : (m.read32 a).toNat = laneSum (fun i => m.read (a + i)) 4 := by
  rw [Memory.read32, le32_toNat]
  exact laneSum_congr fun i hi => by rw [Memory.getD_bytes (by omega), Nat.zero_add]

/-- Settles O43: every read is a sum of lanes; four of them are the low half of eight. -/
theorem wordReadsAreLittleEndian : Obligations.WordReadsAreLittleEndian := by
  refine fun m a => ⟨m.read64_toNat a, m.read32_toNat a, BitVec.eq_of_toNat_eq ?_, fun n o h => BitVec.eq_of_toNat_eq ?_⟩
  · rw [BitVec.toNat_setWidth, Memory.read32_toNat, Memory.read64_toNat]
    exact (laneSum_mod _ 4 4).symm
  · rw [le64_bytes_toNat h, Memory.read64_toNat]

end Sys2Proof.Machine
end

section
/-! The encoding of commands (spec/30_encoding.md R70 to R81): a word and its eight bytes, when the decoder answers a command,
what the encoder writes, the response words, and the identities between commands. -/

namespace Sys2Proof

/-! ### A descriptor as bytes -/

@[simp] theorem wordBytes_length (w : Word) (P : Params) : (wordBytes w P).length = 8 := by
  unfold wordBytes
  cases P.byteOrder <;> rfl

/-- The eight bytes of a word, the most significant first, are the word. -/
theorem extractLsb'_bytes_append (w : Word) :
    w.extractLsb' 56 8 ++ w.extractLsb' 48 8 ++ w.extractLsb' 40 8 ++ w.extractLsb' 32 8 ++ w.extractLsb' 24 8 ++
      w.extractLsb' 16 8 ++ w.extractLsb' 8 8 ++ w.extractLsb' 0 8 = w := by
  iterate 7 rw [BitVec.extractLsb'_append_extractLsb'_eq_extractLsb']
  · exact BitVec.extractLsb'_eq_self
  all_goals rfl

/-- In either byte order, reading a word's eight bytes gives the word and leaves what follows. -/
theorem takeWord_wordBytes_append (w : Word) (rest : List Byte) (P : Params) :
    takeWord (wordBytes w P ++ rest) P = some (w, rest) := by
  cases h : P.byteOrder <;>
    simp only [wordBytes, h, List.reverse_cons, List.reverse_nil, List.nil_append, List.cons_append, takeWord] <;>
    exact congrArg (fun v => some (v, rest)) (extractLsb'_bytes_append w)

theorem Descriptor.toBytes_length (d : Descriptor) (P : Params) : (d.toBytes P).length = 40 := by
  simp [Descriptor.toBytes]

/-- Reading the 40 bytes of a descriptor gives the descriptor and leaves what follows. -/
theorem Descriptor.takeBytes_toBytes_append (d : Descriptor) (rest : List Byte) (P : Params) :
    Descriptor.takeBytes (d.toBytes P ++ rest) P = some (d, rest) := by
  simp only [Descriptor.toBytes, List.append_assoc, Descriptor.takeBytes, takeWord_wordBytes_append, Option.bind_some,
    Option.map_some]

theorem decodeBytes_toBytes_append {d : Descriptor} {i : Instr} {P : Params} (rest : List Byte) (h : decode d P = .ok i) :
    decodeBytes (d.toBytes P ++ rest) P = .ok (i, rest) := by
  simp only [decodeBytes, Descriptor.takeBytes_toBytes_append, h]

/-! ### When the decoder answers a command -/

theorem Opcode.ofByte_code (o : Opcode) : Opcode.ofByte o.code = some o := by
  cases o <;> rfl

theorem Opcode.code_of_ofByte {b : Byte} {o : Opcode} (h : Opcode.ofByte b = some o) : o.code = b :=
  eq_of_beq (List.find?_some (p := fun o : Opcode => o.code == b) h)

theorem Opcode.word_opc (o : Opcode) : o.word.extractLsb' 0 8 = o.code := by
  cases o <;> rfl

/-- `W0` is its two fields. -/
theorem Descriptor.rsv0_append_opc (d : Descriptor) : d.rsv0 ++ d.opc = d.w0 := by
  rw [Descriptor.rsv0, Descriptor.opc, BitVec.extractLsb'_append_extractLsb'_eq_extractLsb' (Nat.zero_add 8).symm]
  exact BitVec.extractLsb'_eq_self

/-- The fields of `W0` are those of an opcode's row exactly when `W0` is the row's value (R74). -/
theorem Descriptor.w0_eq_word_iff (d : Descriptor) (o : Opcode) : d.w0 = o.word ↔ d.rsv0 = 0 ∧ d.opc = o.code := by
  constructor
  · intro h
    rw [Descriptor.rsv0, Descriptor.opc, h]
    exact ⟨Laws.EncodesToItsRow.word_rsv0 o, o.word_opc⟩
  · rintro ⟨hrsv, hopc⟩
    rw [← d.rsv0_append_opc, hrsv, hopc]
    cases o <;> rfl

/-- Everything the decoder can answer that is a command: `W0` is the value of an opcode's row, and the operands are those the
opcode takes (R74, R75). -/
theorem decode_eq_ok_iff (d : Descriptor) (i : Instr) (P : Params) :
    decode d P = .ok i ↔ ∃ o : Opcode, d.w0 = o.word ∧ d.operands o P = i := by
  simp only [Descriptor.w0_eq_word_iff]
  unfold decode
  by_cases hrsv : d.rsv0 = 0
  · rw [if_neg (not_not.mpr hrsv)]
    constructor
    · intro h
      cases ho : Opcode.ofByte d.opc with
      | none => rw [ho] at h; cases h
      | some o =>
        rw [ho] at h
        cases h
        exact ⟨o, ⟨hrsv, (Opcode.code_of_ofByte ho).symm⟩, rfl⟩
    · rintro ⟨o, ⟨-, hopc⟩, rfl⟩
      rw [hopc, Opcode.ofByte_code]
  · rw [if_pos hrsv]
    exact iff_of_false nofun fun ⟨o, ⟨h, _⟩, _⟩ => hrsv h

/-- A descriptor is decoded by its `W0` and the operands taken from it. -/
theorem decode_congr {d e : Descriptor} {P Q : Params} (hw0 : d.w0 = e.w0)
    (hops : ∀ o, d.operands o P = e.operands o Q) : decode d P = decode e Q := by
  unfold decode Descriptor.rsv0 Descriptor.opc
  rw [hw0]
  simp only [hops]

/-! ### What the encoder writes -/

theorem encode_w0 (i : Instr) : (encode i).w0 = i.opcode.word := by
  cases i <;> rfl

theorem operandFits_iff (ptr len : Word) (P : Params) :
    operandFits ptr len P = true ↔ ptr.toNat < 2 ^ P.addressWidth.val ∧ len.toNat < 2 ^ P.countWidth.val := by
  simp [operandFits]

/-- The fields `PTR` and `LEN` fit their widths. -/
theorem Descriptor.operandFits_ptr_len (d : Descriptor) (P : Params) : operandFits (d.ptr P) (d.len P) P = true :=
  (operandFits_iff _ _ P).mpr ⟨Machine.lowBits_lt _ _, Machine.lowBits_lt _ _⟩

theorem Descriptor.operands_wf (d : Descriptor) (o : Opcode) (P : Params) : (d.operands o P).wf P = true := by
  cases o with
  | init | finalize => rfl
  | update | hash128 | hash64 | hash32 => exact d.operandFits_ptr_len P

/-- A message operand that fits its widths is what the fields `PTR` and `LEN` hold. -/
theorem Descriptor.ptr_len_of_fits {d : Descriptor} {P : Params} (h : operandFits d.w3 d.w4 P = true) :
    d.ptr P = d.w3 ∧ d.len P = d.w4 := by
  obtain ⟨hptr, hlen⟩ := (operandFits_iff _ _ P).mp h
  exact ⟨Machine.lowBits_of_lt _ _ hptr, Machine.lowBits_of_lt _ _ hlen⟩

/-- The operands of an encoded command are the command's. -/
theorem operands_encode (i : Instr) (P : Params) (h : i.wf P = true) : (encode i).operands i.opcode P = i := by
  cases i with
  | init seed0 seed1 => rfl
  | finalize => rfl
  | update ptr len =>
    obtain ⟨hptr, hlen⟩ := Descriptor.ptr_len_of_fits (d := encode (.update ptr len)) h
    exact congrArg₂ Instr.update hptr hlen
  | hash128 seed0 seed1 ptr len =>
    obtain ⟨hptr, hlen⟩ := Descriptor.ptr_len_of_fits (d := encode (.hash128 seed0 seed1 ptr len)) h
    exact congrArg₂ (Instr.hash128 seed0 seed1) hptr hlen
  | hash64 seed ptr len =>
    obtain ⟨hptr, hlen⟩ := Descriptor.ptr_len_of_fits (d := encode (.hash64 seed ptr len)) h
    exact congrArg₂ (Instr.hash64 seed) hptr hlen
  | hash32 seed ptr len =>
    obtain ⟨hptr, hlen⟩ := Descriptor.ptr_len_of_fits (d := encode (.hash32 seed ptr len)) h
    have hseed : (seed.setWidth 64 : Word).extractLsb' 0 32 = seed := by
      rw [BitVec.extractLsb'_setWidth_of_le (by decide), BitVec.extractLsb'_eq_self]
    simp only [Instr.opcode, Descriptor.operands, hptr, hlen]
    exact congrArg (Instr.hash32 · ptr len) hseed

theorem decode_encode (i : Instr) (P : Params) (h : i.wf P = true) : decode (encode i) P = .ok i :=
  (decode_eq_ok_iff _ _ P).mpr ⟨i.opcode, encode_w0 i, operands_encode i P h⟩

/-- At widths of 64 every command can be carried. -/
theorem Instr.wf_of_width_64 (i : Instr) (P : Params) (haddr : P.addressWidth = 64) (hcount : P.countWidth = 64) :
    i.wf P = true := by
  have hfits : ∀ ptr len : Word, operandFits ptr len P = true := fun ptr len => by
    rw [operandFits_iff, haddr, hcount]
    exact ⟨ptr.isLt, len.isLt⟩
  cases i with
  | init | finalize => rfl
  | update | hash128 | hash64 | hash32 => exact hfits _ _

/-- Settles O1: the bytes give the descriptor back word by word, and the descriptor the command. -/
theorem decodeOfEncodedBytes : Obligations.DecodeOfEncodedBytes :=
  ⟨fun i rest P h => ⟨decodeBytes_toBytes_append rest (decode_encode i P h), (encode i).toBytes_length P⟩,
    fun i P => i.wf_of_width_64 P⟩

/-! ### Well-formed descriptors -/

/-- A word with no bit set from bit `n` on is below `2^n`. -/
theorem toNat_lt_of_ushiftRight_eq_zero {w : Word} {n : Nat} (h : w >>> n = 0) : w.toNat < 2 ^ n := by
  have hdiv : w.toNat / 2 ^ n = 0 := by
    rw [← Nat.shiftRight_eq_div_pow, ← BitVec.toNat_ushiftRight, h]
    rfl
  exact (Nat.div_eq_zero_iff_lt (Nat.two_pow_pos n)).mp hdiv

theorem lowBits_of_ushiftRight_eq_zero {n : Fin 65} {w : Word} (h : w >>> n.val = 0) : Machine.lowBits n w = w :=
  Machine.lowBits_of_lt n w (toNat_lt_of_ushiftRight_eq_zero h)

/-- The low half of a word (the seed of HASH32), widened, is the word when its high half is zero. -/
theorem setWidth_extractLsb'_of_ushiftRight_eq_zero {w : Word} (h : w >>> 32 = 0) :
    (w.extractLsb' 0 32).setWidth 64 = w := by
  have hlt := toNat_lt_of_ushiftRight_eq_zero h
  apply BitVec.eq_of_toNat_eq
  rw [BitVec.toNat_setWidth, BitVec.extractLsb'_toNat, Nat.shiftRight_zero, Nat.mod_eq_of_lt hlt, Nat.mod_eq_of_lt w.isLt]

/-- A well-formed descriptor as propositions: `W0` is 1 to 6 and nothing ignored is set. -/
theorem Descriptor.wf_iff (d : Descriptor) (P : Params) :
    d.wf P = true ↔ d.w0 >>> 8 = 0 ∧ d.w0 ≠ 0 ∧ d.w0.toNat ≤ 6 ∧ ∀ w ∈ d.ignoredWords P, w = 0 := by
  rw [Descriptor.wf, Option.isNone_iff_eq_none, Descriptor.check]
  by_cases hrsv : d.w0 >>> 8 = 0
  · rw [if_neg (not_not.mpr hrsv)]
    by_cases hop : d.w0 = 0 ∨ 6 < d.w0.toNat
    · rw [if_pos hop]
      exact iff_of_false nofun fun ⟨_, h0, h6, _⟩ => hop.elim h0 (Nat.not_lt.mpr h6)
    · rw [if_neg hop]
      obtain ⟨h0, h6⟩ := not_or.mp hop
      have hany : (if (d.ignoredWords P).any (· != 0) then some IllFormed.ignoredOperand else none) = none ↔
          ∀ w ∈ d.ignoredWords P, w = 0 := by simp
      exact hany.trans ⟨fun hz => ⟨hrsv, h0, Nat.not_lt.mp h6, hz⟩, fun ⟨_, _, _, hz⟩ => hz⟩
  · rw [if_pos hrsv]
    exact iff_of_false nofun fun h => hrsv h.1

/-- Every command's encoding is that of its row (R74, R72). -/
theorem encodesToItsRow (i : Instr) : Laws.EncodesToItsRow.Statement i := by
  cases i with
  | init seed0 seed1 => exact Laws.EncodesToItsRow.init seed0 seed1
  | update ptr len => exact Laws.EncodesToItsRow.update ptr len
  | finalize => exact Laws.EncodesToItsRow.finalize
  | hash128 seed0 seed1 ptr len => exact Laws.EncodesToItsRow.hash128 seed0 seed1 ptr len
  | hash64 seed ptr len => exact Laws.EncodesToItsRow.hash64 seed ptr len
  | hash32 seed ptr len => exact Laws.EncodesToItsRow.hash32 seed ptr len

/-- The `W0` of a row passes the checks of R75. -/
theorem Opcode.word_legal (o : Opcode) : o.word >>> 8 = 0 ∧ o.word ≠ 0 ∧ o.word.toNat ≤ 6 := by
  cases o <;> decide

theorem encode_wf (i : Instr) (P : Params) (h : i.wf P = true) : (encode i).wf P = true := by
  obtain ⟨-, -, hignored⟩ := encodesToItsRow i
  obtain ⟨hrsv, h0, h6⟩ := i.opcode.word_legal
  rw [← encode_w0] at hrsv h0 h6
  exact (Descriptor.wf_iff _ P).mpr ⟨hrsv, h0, h6, hignored P h⟩

/-- With nothing ignored set, the operands an opcode takes, encoded, are the descriptor: by the row of R72, each word is an
operand, a field that fills its word, or zero. -/
theorem encode_operands {d : Descriptor} {o : Opcode} {P : Params} (hw0 : d.w0 = o.word)
    (hzero : ∀ w ∈ d.ignoredWords P, w = 0) : encode (d.operands o P) = d := by
  obtain ⟨w0, w1, w2, w3, w4⟩ := d
  obtain rfl : w0 = o.word := hw0
  cases o with
  | init =>
    have hzero : ∀ w ∈ [w3, w4], w = 0 := hzero
    obtain ⟨rfl, rfl⟩ : w3 = 0 ∧ w4 = 0 := by simpa using hzero
    rfl
  | finalize =>
    have hzero : ∀ w ∈ [w1, w2, w3, w4], w = 0 := hzero
    obtain ⟨rfl, rfl, rfl, rfl⟩ : w1 = 0 ∧ w2 = 0 ∧ w3 = 0 ∧ w4 = 0 := by simpa using hzero
    rfl
  | update =>
    have hzero : ∀ w ∈ [w1, w2, w3 >>> P.addressWidth.val, w4 >>> P.countWidth.val], w = 0 := hzero
    obtain ⟨rfl, rfl, hptr, hlen⟩ : w1 = 0 ∧ w2 = 0 ∧ w3 >>> P.addressWidth.val = 0 ∧ w4 >>> P.countWidth.val = 0 := by
      simpa using hzero
    exact congrArg₂ (Descriptor.mk _ 0 0) (lowBits_of_ushiftRight_eq_zero hptr) (lowBits_of_ushiftRight_eq_zero hlen)
  | hash128 =>
    have hzero : ∀ w ∈ [w3 >>> P.addressWidth.val, w4 >>> P.countWidth.val], w = 0 := hzero
    obtain ⟨hptr, hlen⟩ : w3 >>> P.addressWidth.val = 0 ∧ w4 >>> P.countWidth.val = 0 := by
      simpa using hzero
    exact congrArg₂ (Descriptor.mk _ w1 w2) (lowBits_of_ushiftRight_eq_zero hptr) (lowBits_of_ushiftRight_eq_zero hlen)
  | hash64 =>
    have hzero : ∀ w ∈ [w2, w3 >>> P.addressWidth.val, w4 >>> P.countWidth.val], w = 0 := hzero
    obtain ⟨rfl, hptr, hlen⟩ : w2 = 0 ∧ w3 >>> P.addressWidth.val = 0 ∧ w4 >>> P.countWidth.val = 0 := by
      simpa using hzero
    exact congrArg₂ (Descriptor.mk _ w1 0) (lowBits_of_ushiftRight_eq_zero hptr) (lowBits_of_ushiftRight_eq_zero hlen)
  | hash32 =>
    have hzero : ∀ w ∈ [w1 >>> 32, w2, w3 >>> P.addressWidth.val, w4 >>> P.countWidth.val], w = 0 := hzero
    obtain ⟨hseed, rfl, hptr, hlen⟩ : w1 >>> 32 = 0 ∧ w2 = 0 ∧ w3 >>> P.addressWidth.val = 0 ∧ w4 >>> P.countWidth.val = 0 := by
      simpa using hzero
    simp only [Descriptor.operands, encode, Descriptor.ptr, Descriptor.len,
      setWidth_extractLsb'_of_ushiftRight_eq_zero hseed, lowBits_of_ushiftRight_eq_zero hptr,
      lowBits_of_ushiftRight_eq_zero hlen]

/-- The default decodes the fields `PTR` and `LEN` of any configuration as it decodes whole words. -/
theorem decode_cut_operands (d : Descriptor) (P : Params) :
    decode d P = decode ⟨d.w0, d.w1, d.w2, d.ptr P, d.len P⟩ := by
  refine decode_congr (by rfl) fun o => ?_
  cases o <;> simp [Descriptor.operands, Descriptor.ptr, Descriptor.len]

/-- Settles O2: `decode_encode` one way, `encode_operands` the other, and `PTR` and `LEN` by `decode_cut_operands`. -/
theorem encodeOfDecodedDescriptor : Obligations.EncodeOfDecodedDescriptor := by
  refine fun P => ⟨fun i h => ⟨encode_wf i P h, decode_encode i P h⟩, fun d i hwf h => ?_, fun d => decode_cut_operands d P⟩
  obtain ⟨-, -, -, hzero⟩ := (d.wf_iff P).mp hwf
  obtain ⟨o, hw0, rfl⟩ := (decode_eq_ok_iff d i P).mp h
  exact ⟨encode_operands hw0 hzero, d.operands_wf o P⟩

/-! ### The rows of the opcode map -/

@[simp] theorem Descriptor.ptr_params (d : Descriptor) : d.ptr = d.w3 := Machine.lowBits_64 d.w3

@[simp] theorem Descriptor.len_params (d : Descriptor) : d.len = d.w4 := Machine.lowBits_64 d.w4

/-- At the default widths an opcode's row decodes to its operands as they stand. -/
theorem decode_row (o : Opcode) (w1 w2 w3 w4 : Word) :
    decode ⟨o.word, w1, w2, w3, w4⟩ = .ok ((⟨o.word, w1, w2, w3, w4⟩ : Descriptor).operands o) :=
  (decode_eq_ok_iff _ _ _).mpr ⟨o, rfl, rfl⟩

/-- Settles O4: a command comes from a row's `W0` (`decode_eq_ok_iff`), and each row is `decode_row`. -/
theorem commandsUseTheirOperandWords : Obligations.CommandsUseTheirOperandWords := by
  constructor
  · intro d i h
    obtain ⟨o, hw0, -⟩ := (decode_eq_ok_iff d i _).mp h
    rw [hw0]
    cases o <;> decide
  · intro w1 w2 w3 w4
    have hseed : w1.extractLsb' 0 32 = BitVec.ofNat 32 (w1.toNat % 2 ^ 32) := by
      apply BitVec.eq_of_toNat_eq
      simp
    have hrow := fun o => decode_row o w1 w2 w3 w4
    simp only [Descriptor.operands, Descriptor.ptr_params, Descriptor.len_params, hseed] at hrow
    exact ⟨hrow .init, hrow .update, hrow .finalize, hrow .hash128, hrow .hash64, hrow .hash32⟩

/-- Settles O5: the encodings and the rejections by evaluation, the decodings because they are those of the encodings
(`decode_encode`). -/
theorem workedEncodings : Obligations.WorkedEncodings := by
  refine ⟨rfl, rfl, rfl, rfl, rfl, rfl, ?_, ?_, ?_, ?_, ?_, ?_, rfl, rfl, rfl, rfl⟩
  · exact decode_encode (.init 123456789 987654321) _ rfl
  · exact decode_encode (.update 0x1000 100) _ rfl
  · exact decode_encode .finalize _ rfl
  · exact decode_encode (.hash128 0 0 0x1061 3) _ rfl
  · exact decode_encode (.hash64 5 0x1000 10) _ rfl
  · exact decode_encode (.hash32 0 0x1000 0) _ rfl

end Sys2Proof

namespace Sys2Proof.Machine

/-! ### The words of a response -/

/-- What R73 and R181 say of the words of a command's response. -/
structure Response.InRange (r : Response) (i : Instr) : Prop where
  code_le : r.r0.toNat ≤ 4
  fault : r.r0 ≠ 0 → r.r1 = 0 ∧ r.r2 = 0
  noDigest : (∃ a b, i = .init a b) ∨ (∃ p n, i = .update p n) → r.r1 = 0 ∧ r.r2 = 0
  oneWord : (∃ a p n, i = .hash64 a p n) ∨ (∃ a p n, i = .hash32 a p n) → r.r2 = 0
  halfWord : (∃ a p n, i = .hash32 a p n) → r.r1.toNat < 2 ^ 32

/-- A response without digest words is in range for every command. -/
theorem Response.inRange_code (i : Instr) {c : Word} (h : c.toNat ≤ 4) : Response.InRange ⟨c, 0, 0⟩ i :=
  ⟨h, fun _ => ⟨rfl, rfl⟩, fun _ => ⟨rfl, rfl⟩, fun _ => rfl, fun _ => Nat.two_pow_pos 32⟩

/-- The result of HASH32 by its number, as R173's low 32 bits, zero-extended. -/
theorem lowHalf_eq (w : Word) : lowHalf w = BitVec.ofNat 64 (w.toNat % 2 ^ 32) := by
  apply BitVec.eq_of_toNat_eq
  simp [lowHalf]

theorem lowHalf_lt (w : Word) : (lowHalf w).toNat < 2 ^ 32 := by
  rw [lowHalf_eq, BitVec.toNat_ofNat]
  omega

/-- A completed command's digest words are in range when the command answers as many. -/
theorem Response.inRange_digest {i : Instr} {d0 d1 : Word}
    (hdigest : ¬ ((∃ a b, i = .init a b) ∨ ∃ p n, i = .update p n))
    (hone : (∃ a p n, i = .hash64 a p n) ∨ (∃ a p n, i = .hash32 a p n) → d1 = 0)
    (hhalf : (∃ a p n, i = .hash32 a p n) → d0.toNat < 2 ^ 32) : (Response.digest d0 d1).InRange i :=
  ⟨Nat.zero_le 4, fun h => absurd rfl h, fun h => absurd h hdigest, hone, hhalf⟩

theorem oneShot_inRange {i : Instr} {ptr len : Word} {answer : List Byte → Response} {s t : State}
    (h : oneShot ptr len answer s = .next t) (hans : ∀ M, (answer M).InRange i) :
    ∃ r : Response, t.response = some r ∧ r.InRange i := by
  rcases oneShot_cases ptr len answer s with ⟨_, e⟩ | ⟨_, _, e⟩ | ⟨_, e⟩ <;> rw [e] at h <;> cases h
  · exact ⟨_, rfl, Response.inRange_code i (by decide)⟩
  · exact ⟨_, rfl, Response.inRange_code i (by decide)⟩
  · exact ⟨_, rfl, hans _⟩

theorem execUpdate_inRange {ptr len : Word} {s t : State} (h : execUpdate ptr len s = .next t) :
    ∃ r : Response, t.response = some r ∧ r.InRange (.update ptr len) := by
  have hcode : ∃ c : Word, t.response = some ⟨c, 0, 0⟩ ∧ c.toNat ≤ 4 := by
    rcases execUpdate_cases ptr len s with ⟨_, e⟩ | ⟨_, _, e⟩ | ⟨_, _, e⟩ | ⟨_, _, _, e⟩ | ⟨_, _, _, e⟩ <;>
      rw [e] at h <;> cases h <;> exact ⟨_, rfl, by decide⟩
  obtain ⟨c, hc, hle⟩ := hcode
  exact ⟨_, hc, Response.inRange_code _ hle⟩

theorem execFinalize_inRange {s t : State} (h : execFinalize s = .next t) :
    ∃ r : Response, t.response = some r ∧ r.InRange .finalize := by
  rcases execFinalize_cases s with ⟨_, e⟩ | ⟨_, _, e⟩ | ⟨_, _, _, e⟩ | ⟨_, _, _, e⟩ <;> rw [e] at h <;> cases h
  · exact ⟨_, rfl, Response.inRange_code _ (by decide)⟩
  · exact ⟨_, rfl, Response.inRange_digest (by simp) (by simp) (by simp)⟩
  · exact ⟨_, rfl, Response.inRange_digest (by simp) (by simp) (by simp)⟩

/-- Every answer is in range: a code alone, or as many digest words as the command has. -/
theorem exec_inRange (i : Instr) (s t : State) (h : exec i s = .next t) :
    ∃ r : Response, t.response = some r ∧ r.InRange i := by
  cases i with
  | init seed0 seed1 =>
    cases h
    exact ⟨_, rfl, Response.inRange_code _ (by decide)⟩
  | update ptr len => exact execUpdate_inRange h
  | finalize => exact execFinalize_inRange h
  | hash128 seed0 seed1 ptr len =>
    exact oneShot_inRange h fun M => Response.inRange_digest (by simp) (by simp) (by simp)
  | hash64 seed ptr len =>
    exact oneShot_inRange h fun M => Response.inRange_digest (by simp) (fun _ => rfl) (by simp)
  | hash32 seed ptr len =>
    exact oneShot_inRange h fun M => Response.inRange_digest (by simp) (fun _ => rfl) (fun _ => lowHalf_lt _)

/-- Settles O16: `exec_inRange`. -/
theorem responseWordsInRange : Obligations.ResponseWordsInRange := by
  intro i s t h
  obtain ⟨r, hr, hcode, hfault, hnone, hone, hhalf⟩ := exec_inRange i s t h
  exact ⟨r, hr, hcode, hfault, hnone, hone, hhalf⟩

/-! ### The identities between commands -/

/-- When one command's answer is a function of another's that keeps the faults, so is its whole response. -/
theorem oneShot_map (f : Response → Response) {answer answer' : List Byte → Response} (ptr len : Word) (s : State)
    (hfault : ∀ e : CommandFault, f ⟨e.code, 0, 0⟩ = ⟨e.code, 0, 0⟩) (hans : ∀ M, answer' M = f (answer M)) :
    ∃ r, oneShot ptr len answer s = .next { s with response := some r } ∧
      oneShot ptr len answer' s = .next { s with response := some (f r) } := by
  unfold oneShot
  cases fetchMessage ptr len s with
  | error e => exact ⟨⟨e.code, 0, 0⟩, rfl, by rw [hfault]; rfl⟩
  | ok M => exact ⟨answer M, rfl, by rw [← hans]; rfl⟩

theorem oneShot_of_canRead {ptr len : Word} {s : State} (answer : List Byte → Response) (h : CanRead s ptr len) :
    oneShot ptr len answer s = .next { s with response := some (answer (message s ptr len)) } := by
  rw [oneShot, fetchMessage_of_canRead ptr len s h]
  rfl

theorem widenSeed_eq (seed : Half) : widenSeed seed = BitVec.ofNat 64 seed.toNat := (BitVec.ofNat_toNat 64 seed).symm

/-- `Bulk` in terms of any split of the message into whole stripes and less than one more (R133). -/
theorem bulk_of_split {B : List Byte} {n : Nat} (s0 s1 : Word) (P : Params) (hmul : n % 96 = 0) (hle : n ≤ B.length)
    (hlt : B.length < n + 96) :
    bulk B s0 s1 P =
      ((endBlock (absorb (seedAcc s0 s1 P) (B.take n) P) (tagBlock (B.drop n)) P).get 0,
        (endBlock (absorb (seedAcc s0 s1 P) (B.take n) P) (tagBlock (B.drop n)) P).get 1) := by
  obtain rfl : n = stripe * (B.length / stripe) := by simp only [stripe]; omega
  rfl

/-- FINALIZE answers the one-shot hash of the stream that its context holds (R149, R151). -/
theorem execFinalize_of_holdsStream {s0 s1 : Word} {T : List Byte} {s : State}
    (h : HoldsStream s.config s0 s1 T s.toContext) :
    execFinalize s = .next { s with
      response := some ⟨0, (hash128 T s0 s1 s.config).1, (hash128 T s0 s1 s.config).2⟩ } := by
  rcases execFinalize_cases s with ⟨hin, _⟩ | ⟨_, hsmall, e⟩ | ⟨_, hlarge, _, e⟩ | ⟨_, hlarge, h96, _⟩
  · exact absurd (h.initialised.symm.trans hin) (by decide)
  · obtain ⟨-, -, hacc, hcarried, -⟩ := h.small_state hsmall
    rw [e, hacc, hcarried, seedAcc_get_zero, seedAcc_get_one, hash128, if_pos (h.small_iff.mp hsmall)]
  · obtain ⟨hclen, n, -, hmul, -, -, hlen, hacc, hcarried⟩ := h.large_state hlarge
    have hlong : ¬ T.length < thresh := fun hlt => (small_iff_not_large _).mp (h.small_iff.mpr hlt) hlarge
    rw [e, largeDigest, hacc, hcarried, hash128, if_neg hlong, bulk_of_split s0 s1 _ hmul (by omega) (by omega)]
  · obtain ⟨hclen, -⟩ := h.large_state hlarge
    omega

/-- INIT and one readable UPDATE leave the context with that message as its stream. -/
theorem holdsStream_of_init_update (s : State) (s0 s1 ptr len : Word) (h : CanRead s ptr len) :
    ∃ t u, exec (.init s0 s1) s = .next t ∧ exec (.update ptr len) t = .next u ∧
      HoldsStream u.config s0 s1 (message s ptr len) u.toContext ∧ u.config = s.config := by
  have hseeded := holdsStream_seeded s.config s0 s1 s.toContext
  obtain ⟨u, hu, hstream⟩ := execUpdate_holdsStream s0 s1 [] { s with
    acc := seedAcc s0 s1 s.config, pcnt := 0, clen := 0, ovf := false, inited := true
    response := some ⟨0, 0, 0⟩ } ptr len hseeded h
  obtain ⟨hcfg, -⟩ := exec_frame _ _ u hu
  exact ⟨_, u, execInit_eq s0 s1 s, hu, by rw [hcfg]; exact hstream, hcfg⟩

/-- Settles O37: the first two because the shorter hashes are functions of the longer one's response (`oneShot_map`), the third
because FINALIZE hashes the stream (`execFinalize_of_holdsStream`). -/
theorem commandIdentities : Obligations.CommandIdentities := by
  refine ⟨fun s a p n => ?_, fun s a p n => ?_, fun s s0 s1 p n h => ?_⟩
  · exact oneShot_map (fun r => ⟨r.r0, r.r1, 0⟩) p n s (fun _ => rfl) fun _ => rfl
  · refine oneShot_map (fun r => ⟨r.r0, BitVec.ofNat 64 (r.r1.toNat % 2 ^ 32), 0⟩) p n s (fun _ => rfl) fun M => ?_
    rw [lowHalf_eq, widenSeed_eq]
    rfl
  · obtain ⟨t, u, ht, hu, hstream, hcfg⟩ := holdsStream_of_init_update s s0 s1 p n h
    refine ⟨t, u, _, ht, hu, execFinalize_of_holdsStream hstream, ?_⟩
    rw [hcfg]
    exact oneShot_of_canRead _ h

end Sys2Proof.Machine
end

section
/-! The primitives and the mixers (spec/40_primitives.md R90 to R97): where a rotate moves each bit, the zero-padded word as a sum
of lanes, and that every step of a mixer changes one word after another by a bijection that the other words select. -/

namespace Sys2Proof.Machine

/-! ### The rotate -/

/-- At the default direction `rotl64` is the rotate of bit vectors. -/
theorem rotl64_eq_rotateLeft (x : Word) {k : Nat} (hk : k < 64) : rotl64 x k = x.rotateLeft k := by
  rw [rotl64_left, BitVec.rotateLeft_def, Nat.mod_eq_of_lt hk]

theorem getLsbD_rotl64 (x : Word) {k i : Nat} (hk : k < 64) (hi : i < 64) :
    (rotl64 x k).getLsbD ((i + k) % 64) = x.getLsbD i := by
  rw [rotl64_eq_rotateLeft x hk, BitVec.getLsbD_rotateLeft_of_le hk]
  rcases Nat.lt_or_ge (i + k) 64 with hlow | hwrap
  · rw [Nat.mod_eq_of_lt hlow]
    simp [hlow]
  · have hmod : (i + k) % 64 = i + k - 64 := by omega
    have hlt : i + k - 64 < k := by omega
    have hsrc : 64 - k + (i + k - 64) = i := by omega
    simp [hmod, hlt, hsrc]

/-- Settles O44: `getLsbD_rotl64`. -/
theorem rotateMovesEachBit : Obligations.RotateMovesEachBit :=
  fun x _ _ _ hk hi => getLsbD_rotl64 x (Nat.lt_succ_of_le hk) hi

/-- Every bit of a word can be read off the rotated word. -/
theorem rotl64_injective {k : Nat} (hk : k < 64) : Function.Injective fun x : Word => rotl64 x k := by
  intro x y (h : rotl64 x k = rotl64 y k)
  refine BitVec.eq_of_getLsbD_eq fun i hi => ?_
  rw [← getLsbD_rotl64 x hk hi, h, getLsbD_rotl64 y hk hi]

/-! ### The zero-padded word -/

/-- Past its end a sequence reads as zero, padded or not. -/
theorem getD_append_zeros (T : List Byte) (n i : Nat) : (T ++ zeros n).getD i 0 = T.getD i 0 := by
  rcases Nat.lt_or_ge i T.length with hi | hi
  · exact List.getD_append _ _ _ _ hi
  · rw [List.getD_append_right _ _ _ _ hi, List.getD_eq_default _ _ hi, zeros, List.getD_eq_getElem?_getD,
      List.getElem?_getD_replicate_default_eq]

/-- Lanes of zero bytes add nothing. -/
theorem laneSum_add_of_zero {f : Nat → Byte} {m : Nat} (n : Nat) (h : ∀ i, m ≤ i → f i = 0) :
    laneSum f (m + n) = laneSum f m := by
  induction n with
  | zero => rfl
  | succ n ih =>
    rw [← Nat.add_assoc, laneSum_succ, ih, h (m + n) (Nat.le_add_right m n)]
    simp

theorem lepad64_toNat {T : List Byte} (hT : T.length ≤ 8) : (lepad64 T).toNat = laneSum (fun i => T.getD i 0) T.length := by
  calc (lepad64 T).toNat = laneSum (fun i => (T ++ zeros (8 - T.length)).getD (0 + i) 0) 8 := le64_toNat _ 0
    _ = laneSum (fun i => T.getD i 0) 8 := laneSum_congr fun i _ => by rw [Nat.zero_add, getD_append_zeros]
    _ = laneSum (fun i => T.getD i 0) (T.length + (8 - T.length)) := by rw [Nat.add_sub_cancel' hT]
    _ = laneSum (fun i => T.getD i 0) T.length := laneSum_add_of_zero _ fun i hi => List.getD_eq_default _ _ hi

/-- Settles O45: `lepad64_toNat`, which of no bytes is the empty sum. -/
theorem paddedWordIsTheSumOfItsBytes : Obligations.PaddedWordIsTheSumOfItsBytes :=
  ⟨fun _ hT => lepad64_toNat hT, BitVec.eq_of_toNat_eq (lepad64_toNat (T := []) (Nat.zero_le 8))⟩

/-! ### One word of a vector -/

section
variable {n : Nat} (S : Vector Word n) (i : Fin n)

@[simp] theorem get_put_same (v : Word) : (put S i v).get i = v := by
  simp [put, Vector.get_eq_getElem]

theorem get_put_of_ne {i j : Fin n} (h : i ≠ j) (v : Word) : (put S i v).get j = S.get j := by
  simp [put, Vector.get_eq_getElem, Fin.val_ne_of_ne h]

@[simp] theorem put_put (v w : Word) : put (put S i v) i w = put S i w := by
  simp [put]

@[simp] theorem put_get : put S i (S.get i) = S := by
  simp [put, Vector.get_eq_getElem]

end

section
variable {n : Nat}

/-- R97's argument: changing word `i` by an injection that the other words select can be undone, for it leaves those words as
they were. -/
theorem bijective_put (i : Fin n) (f : Vector Word n → Word → Word) (hothers : ∀ S v, f (put S i v) = f S)
    (hf : ∀ S, Function.Injective (f S)) : Function.Bijective fun S => put S i (f S (S.get i)) := by
  constructor
  · intro S T (h : put S i (f S (S.get i)) = put T i (f T (T.get i)))
    have hT : put S i (T.get i) = T := by
      calc put S i (T.get i) = put (put S i (f S (S.get i))) i (T.get i) := (put_put ..).symm
        _ = T := by rw [h, put_put, put_get]
    have hsame : f T = f S := by rw [← hT, hothers]
    have hword : f S (S.get i) = f S (T.get i) := by
      rw [← get_put_same S i (f S (S.get i)), h, get_put_same, hsame]
    rw [← hT, ← hf S hword, put_get]
  · intro U
    obtain ⟨v, hv⟩ := Finite.injective_iff_surjective.mp (hf U) (U.get i)
    refine ⟨put U i v, ?_⟩
    change put (put U i v) i (f (put U i v) ((put U i v).get i)) = U
    rw [put_put, hothers, get_put_same, hv, put_get]

theorem bijective_put_add_const (i : Fin n) (w : Word) : Function.Bijective fun S => put S i (S.get i + w) :=
  bijective_put i (fun _ v => v + w) (fun _ _ => rfl) fun _ _ _ => (BitVec.add_left_inj w).mp

theorem bijective_put_add {i j : Fin n} (h : i ≠ j) : Function.Bijective fun S => put S i (S.get i + S.get j) :=
  bijective_put i (fun S v => v + S.get j) (fun S v => by rw [get_put_of_ne S h])
    fun S _ _ => (BitVec.add_left_inj (S.get j)).mp

theorem bijective_put_xor {i j : Fin n} (h : i ≠ j) : Function.Bijective fun S => put S i (S.get i ^^^ S.get j) :=
  bijective_put i (fun S v => v ^^^ S.get j) (fun S v => by rw [get_put_of_ne S h])
    fun S _ _ => (BitVec.xor_left_inj (S.get j)).mp

theorem bijective_put_rotl64 (i : Fin n) {k : Nat} (hk : k < 64) :
    Function.Bijective fun S => put S i (rotl64 (S.get i) k) :=
  bijective_put i (fun _ v => rotl64 v k) (fun _ _ => rfl) fun _ => rotl64_injective hk

end

/-- A loop is a bijection when each of its steps is. -/
theorem bijective_foldl {α ι : Type} {step : α → ι → α} (h : ∀ j, Function.Bijective fun a => step a j) (l : List ι) :
    Function.Bijective fun a => l.foldl step a := by
  induction l with
  | nil => exact Function.bijective_id
  | cons j l ih => exact ih.comp (h j)

/-! ### The mixers -/

theorem shortMixRot_lt : ∀ j : Fin 12, shortMixRot.get j < 64 := by decide

theorem shortEndRot_lt : ∀ j : Fin 11, shortEndRot.get j < 64 := by decide

theorem endRot_lt : ∀ j : Fin 12, endRot.get j < 64 := by decide

theorem mixRot_lt : ∀ i : Fin 12, mixRot.get i < 64 := by decide

/-- A short-mix step changes `h[x]` by itself, then by `h[y]`, then `h[z]` by `h[x]` (R111). -/
theorem shortMixStep_bijective (j : Fin 12) : Function.Bijective fun h => shortMixStep h j := by
  obtain ⟨hadd, hxor⟩ : (shortMixWords.get j).x ≠ (shortMixWords.get j).y ∧
      (shortMixWords.get j).z ≠ (shortMixWords.get j).x := by revert j; decide
  exact (bijective_put_xor hxor).comp ((bijective_put_add hadd).comp (bijective_put_rotl64 _ (shortMixRot_lt j)))

/-- A short-end step changes `h[x]` by `h[y]`, `h[y]` by itself, then `h[x]` by `h[y]` again (R112). -/
theorem shortEndStep_bijective (j : Fin 11) : Function.Bijective fun h => shortEndStep h j := by
  have hne : (shortEndWords.get j).x ≠ (shortEndWords.get j).y := by revert j; decide
  exact (bijective_put_add hne).comp ((bijective_put_rotl64 _ (shortEndRot_lt j)).comp (bijective_put_xor hne))

/-- A diffusion step changes `H[p]` by `H[q]`, `H[t]` by `H[p]`, then `H[q]` by itself (R101). -/
theorem endPartialStep_bijective (j : Fin 12) : Function.Bijective fun H => endPartialStep H j := by
  obtain ⟨hadd, hxor⟩ : (endWords.get j).p ≠ (endWords.get j).q ∧ (endWords.get j).t ≠ (endWords.get j).p := by
    revert j; decide
  exact (bijective_put_rotl64 _ (endRot_lt j)).comp ((bijective_put_xor hxor).comp (bijective_put_add hadd))

/-- A stripe step changes `S[i]` by the block's word, `S[i+2]` by `S[i+10]`, the predecessor by `S[i]`, `S[i]` by itself, then
the predecessor by the successor (R131). -/
theorem mixStripeStep_bijective (w : Vector Word 12) (i : Fin 12) : Function.Bijective fun S => mixStripeStep w S i := by
  obtain ⟨hfrom, hpred, hsucc⟩ : (mixWords.get i).xorTo ≠ (mixWords.get i).xorFrom ∧ (mixWords.get i).pred ≠ i ∧
      (mixWords.get i).pred ≠ (mixWords.get i).succ := by revert i; decide
  exact (bijective_put_add hsucc).comp <| (bijective_put_rotl64 _ (mixRot_lt i)).comp <|
    (bijective_put_xor hpred).comp <| (bijective_put_xor hfrom).comp <| bijective_put_add_const i (w.get i)

/-- Settles O46: each mixer is a loop of bijective steps; `MixStripe`'s steps are so for the words of any block. -/
theorem mixersAreBijections : Obligations.MixersAreBijections := by
  unfold Obligations.MixersAreBijections shortMix shortEnd endPartial mixStripe
  exact ⟨bijective_foldl shortMixStep_bijective indices12, bijective_foldl shortEndStep_bijective indices11,
    bijective_foldl endPartialStep_bijective indices12,
    fun X => bijective_foldl (mixStripeStep_bijective (words12 X)) indices12⟩

end Sys2Proof.Machine
end

section
/-! The final mixer (spec/41_final_mixer.md R101 to R104): a diffusion round written out, `End` as three of them after the
additions, and what the twelve words of a tagged final block tell of the leftover. -/

namespace Sys2Proof.Machine

/-! ### The diffusion -/

/-- The round runs its steps in the order of R101. -/
theorem endPartial_eq_foldl (H : Vector Word 12) : endPartial H = indices12.foldl endPartialStep H := by
  rw [endPartial]

/-- Settles O50: on a vector whose words have names each step computes to its three lines (R101), and the round's order is
`endPartial_eq_foldl`. -/
theorem endPartialWrittenOut : Obligations.EndPartialWrittenOut :=
  ⟨fun _ _ _ _ _ _ _ _ _ _ _ _ => ⟨rfl, rfl, rfl, rfl, rfl, rfl, rfl, rfl, rfl, rfl, rfl, rfl⟩, endPartial_eq_foldl⟩

/-- `EndMix` is three rounds (R102). -/
theorem endMix_eq (H : Vector Word 12) : endMix H = endPartial (endPartial (endPartial H)) := rfl

@[simp] theorem get_words12 (X : List Byte) (i : Fin 12) : (words12 X).get i = le64 X (8 * i.val) := by
  simp [words12, Vector.get_eq_getElem]

/-- Settles O51: `G` is the sum that `End` diffuses, since the two have the same words. -/
theorem endAddsThenDiffuses : Obligations.EndAddsThenDiffuses := by
  intro H G X hG
  have hsum : Vector.zipWith (· + ·) H (words12 X) = G := by
    refine Vector.ext fun i hi => ?_
    have hword := hG ⟨i, hi⟩
    rw [← get_words12] at hword
    rw [Vector.getElem_zipWith]
    exact hword.symm
  rw [endBlock, hsum, endMix_eq]

/-! ### The words of a block -/

/-- Equal sums have equal bytes in every lane. -/
theorem eq_of_laneSum_eq {f g : Nat → Byte} {n : Nat} (h : laneSum f n = laneSum g n) : ∀ i, i < n → f i = g i := by
  induction n with
  | zero => exact fun i hi => absurd hi (Nat.not_lt_zero i)
  | succ n ih =>
    have hlow : laneSum f n = laneSum g n := by rw [← laneSum_mod f n 1, h, laneSum_mod]
    rw [laneSum_succ, laneSum_succ, hlow, Nat.add_left_cancel_iff, Nat.mul_left_inj (by positivity)] at h
    intro i hi
    rcases Nat.lt_succ_iff_lt_or_eq.mp hi with hlt | rfl
    · exact ih hlow i hlt
    · exact BitVec.eq_of_toNat_eq h

/-- Equal words have equal bytes (R90). -/
theorem getD_eq_of_le64_eq {X Y : List Byte} {o i : Nat} (h : le64 X o = le64 Y o) (hi : i < 8) :
    X.getD (o + i) 0 = Y.getD (o + i) 0 := by
  have hlanes : laneSum (fun i => X.getD (o + i) 0) 8 = laneSum (fun i => Y.getD (o + i) 0) 8 := by
    rw [← le64_toNat, h, le64_toNat]
  exact eq_of_laneSum_eq hlanes i hi

/-- The twelve words determine a 96-byte block: byte `k` is byte `k % 8` of word `k / 8` (R94). -/
theorem eq_of_words12_eq {X Y : List Byte} (hX : X.length = 96) (hY : Y.length = 96) (h : words12 X = words12 Y) : X = Y := by
  refine List.ext_getElem (hX.trans hY.symm) fun k hkX hkY => ?_
  have hword : le64 X (8 * (k / 8)) = le64 Y (8 * (k / 8)) := by
    rw [← get_words12 X ⟨k / 8, by omega⟩, h, get_words12]
  have hbyte := getD_eq_of_le64_eq hword (Nat.mod_lt k (by omega))
  rwa [Nat.div_add_mod, List.getD_eq_getElem _ _ hkX, List.getD_eq_getElem _ _ hkY] at hbyte

/-! ### The tagged final block -/

@[simp] theorem zeros_length (n : Nat) : (zeros n).length = n := List.length_replicate

theorem tagBlock_length {T : List Byte} (hT : T.length ≤ 95) : (tagBlock T).length = 96 := by
  simp only [tagBlock, List.length_append, zeros_length, List.length_singleton]
  omega

/-- The tag in byte 95 gives the leftover's length, and so where its bytes end and the zeros begin (R132). -/
theorem eq_of_tagBlock_eq {T U : List Byte} (hT : T.length ≤ 95) (hU : U.length ≤ 95) (h : tagBlock T = tagBlock U) :
    T = U := by
  obtain ⟨hpadded, htag⟩ := List.append_inj' h rfl
  have hlen : T.length = U.length := by
    have htoNat := congrArg BitVec.toNat (List.singleton_inj.mp htag)
    rwa [BitVec.toNat_ofNat, BitVec.toNat_ofNat, Nat.mod_eq_of_lt (by omega), Nat.mod_eq_of_lt (by omega)] at htoNat
  exact List.append_inj_left hpadded hlen

/-- Settles O54: the words tell the bytes of the blocks, and the blocks tell the leftovers. -/
theorem tagBlockTellsLeftoversApart : Obligations.TagBlockTellsLeftoversApart :=
  fun _ _ hT hU h => eq_of_tagBlock_eq hT hU (eq_of_words12_eq (tagBlock_length hT) (tagBlock_length hU) h)

end Sys2Proof.Machine
end

section
/-! The short mixer (spec/42_short_mixer.md R111 to R117): its two step loops written out, the tail's padded words as the sum of
the tail's bytes in their lanes, and `Short` line by line. -/

namespace Sys2Proof.Machine

/-! ### The mix and the avalanche round -/

/-- The mix runs its steps in the order of R111. -/
theorem shortMix_eq_foldl (h : Vector Word 4) : shortMix h = indices12.foldl shortMixStep h := by
  rw [shortMix]

/-- The avalanche round runs its steps in the order of R112. -/
theorem shortEnd_eq_foldl (h : Vector Word 4) : shortEnd h = indices11.foldl shortEndStep h := by
  rw [shortEnd]

/-- Settles O47: on four named words each step computes to its line of R111, and the order is `shortMix_eq_foldl`. -/
theorem shortMixWrittenOut : Obligations.ShortMixWrittenOut :=
  ⟨fun _ _ _ _ => ⟨rfl, rfl, rfl, rfl, rfl, rfl, rfl, rfl, rfl, rfl, rfl, rfl⟩, shortMix_eq_foldl⟩

/-- Settles O48: on four named words each step computes to its line of R112, and the order is `shortEnd_eq_foldl`. -/
theorem shortEndWrittenOut : Obligations.ShortEndWrittenOut :=
  ⟨fun _ _ _ _ => ⟨rfl, rfl, rfl, rfl, rfl, rfl, rfl, rfl, rfl, rfl, rfl⟩, shortEnd_eq_foldl⟩

/-! ### The tail -/

/-- The word whose byte lanes `0 .. n - 1` hold the bytes `f 0 .. f (n - 1)`. -/
def laneWord (f : Nat → Byte) (n : Nat) : Word := BitVec.ofNat 64 (laneSum f n)

@[simp] theorem laneWord_zero (f : Nat → Byte) : laneWord f 0 = 0 := rfl

theorem laneWord_succ (f : Nat → Byte) (n : Nat) :
    laneWord f (n + 1) = BitVec.ofNat 64 (f n).toNat <<< (8 * n) + laneWord f n := by
  have hlane : (BitVec.ofNat 64 (f n).toNat <<< (8 * n) : Word) = BitVec.ofNat 64 ((f n).toNat * 2 ^ (8 * n)) := by
    refine BitVec.eq_of_toNat_eq ?_
    rw [BitVec.toNat_shiftLeft, BitVec.toNat_ofNat, BitVec.toNat_ofNat, Nat.shiftLeft_eq, Nat.mod_mul_mod]
  rw [laneWord, laneSum_succ, BitVec.ofNat_add, BitVec.add_comm, hlane, laneWord]

theorem slice_length {B : List Byte} {i j : Nat} (hj : j ≤ B.length) : (slice B i j).length = j - i := by
  rw [slice, List.length_take, List.length_drop]
  omega

theorem getD_slice {B : List Byte} {i j k : Nat} (hk : k < j - i) : (slice B i j).getD k 0 = B.getD (i + k) 0 := by
  simp [slice, List.getD_eq_getElem?_getD, hk]

/-- At most eight bytes of a message, zero-padded, are the word with those bytes in its lanes (R93). -/
theorem lepad64_slice {B : List Byte} {i j : Nat} (hj : j ≤ B.length) (h8 : j - i ≤ 8) :
    lepad64 (slice B i j) = laneWord (fun k => B.getD (i + k) 0) (j - i) := by
  have hlen := slice_length (i := i) hj
  have hsum : (lepad64 (slice B i j)).toNat = laneSum (fun k => B.getD (i + k) 0) (j - i) := by
    rw [lepad64_toNat (hlen.trans_le h8), hlen]
    exact laneSum_congr fun k hk => getD_slice hk
  rw [laneWord, ← hsum, BitVec.ofNat_toNat, BitVec.setWidth_eq]

/-- Tail byte `p` into `c` or `d`: one row of R115's table. -/
def addTailByte (f : Nat → Byte) (h : Vector Word 4) (p : Nat) : Vector Word 4 :=
  let v : Word := BitVec.ofNat 64 (f p).toNat
  if p ≤ 7 then put h 2 (h.get 2 + v <<< (8 * p)) else put h 3 (h.get 3 + v <<< (8 * (p - 8)))

section
variable (f : Nat → Byte) (a b c d : Word)

theorem addTailByte_low {p : Nat} (hp : p ≤ 7) :
    addTailByte f #v[a, b, c, d] p = #v[a, b, c + BitVec.ofNat 64 (f p).toNat <<< (8 * p), d] :=
  if_pos hp

theorem addTailByte_high (m : Nat) :
    addTailByte f #v[a, b, c, d] (8 + m) = #v[a, b, c, d + BitVec.ofNat 64 (f (8 + m)).toNat <<< (8 * m)] := by
  rw [addTailByte, if_neg (by omega), Nat.add_sub_cancel_left]
  rfl

/-- The rows of R115's table from the last byte down to the first: the first eight bytes fill `c`'s lanes, the others `d`'s. -/
theorem foldl_addTailByte (r : Nat) :
    (List.range r).reverse.foldl (addTailByte f) #v[a, b, c, d] =
      #v[a, b, c + laneWord f (min r 8), d + laneWord (fun i => f (8 + i)) (r - 8)] := by
  induction r generalizing c d with
  | zero => simp
  | succ r ih =>
    rw [List.range_succ, List.reverse_append, List.reverse_singleton, List.singleton_append, List.foldl_cons]
    rcases Nat.lt_or_ge r 8 with hlow | hhigh
    · rw [addTailByte_low f a b c d (by omega), ih, Nat.min_eq_left hlow, Nat.min_eq_left hlow.le, laneWord_succ,
        BitVec.add_assoc, Nat.sub_eq_zero_of_le hlow, Nat.sub_eq_zero_of_le hlow.le]
    · obtain ⟨m, rfl⟩ := Nat.exists_eq_add_of_le hhigh
      rw [addTailByte_high, ih, Nat.add_assoc, Nat.add_sub_cancel_left, Nat.add_sub_cancel_left, laneWord_succ,
        BitVec.add_assoc, Nat.min_eq_right (by omega), Nat.min_eq_right (by omega)]

end

/-- Settles O55: both sides of R115 are the tail's bytes in the lanes of `c` and `d`. -/
theorem tailIsThePerByteTable : Obligations.TailIsThePerByteTable := by
  intro B o r a b c d hor hr
  by_cases h0 : r = 0
  · rw [if_pos h0, h0, foldTail_zero]
    rfl
  · have hc : lepad64 (slice B o (o + min r 8)) = laneWord (fun p => B.getD (o + p) 0) (min r 8) := by
      rw [lepad64_slice (by omega) (by omega), Nat.add_sub_cancel_left]
    have hd : lepad64 (slice B (o + 8) (o + r)) = laneWord (fun i => B.getD (o + (8 + i)) 0) (r - 8) := by
      rw [lepad64_slice (by omega) (by omega), Nat.add_sub_add_left]
      simp only [Nat.add_assoc]
    rw [if_neg h0, foldTail_pos B _ o r h0, hc, hd]
    exact (foldl_addTailByte (fun p => B.getD (o + p) 0) a b c d r).symm

/-! ### The whole short hash -/

/-- The total length into `d` (R116). -/
theorem put_d (h : Vector Word 4) (v : Word) : put h 3 v = #v[h.get 0, h.get 1, h.get 2, v] := by
  ext i hi
  interval_cases i <;> simp [put, Vector.get_eq_getElem]

/-- The tail by its two words: the constant into both when it is empty (R116), else its padded words (R115). -/
theorem foldTail_eq (B : List Byte) (a b c d : Word) (o r : Nat) :
    foldTail B #v[a, b, c, d] o r =
      #v[a, b, if r = 0 then c + K else c + lepad64 (slice B o (o + min r 8)),
        if r = 0 then d + K else d + lepad64 (slice B (o + 8) (o + r))] := by
  by_cases h0 : r = 0
  · rw [if_pos h0, if_pos h0, h0, foldTail_zero]
    rfl
  · rw [if_neg h0, if_neg h0, foldTail_pos B _ o r h0]
    rfl

/-- The half-stripe moves the tail's offset and takes sixteen of its bytes (R114). -/
theorem tailOf_eq (n : Nat) :
    tailOf n = (if 16 ≤ n % 32 then 32 * (n / 32) + 16 else 32 * (n / 32), if 16 ≤ n % 32 then n % 32 - 16 else n % 32) := by
  rw [tailOf]
  split <;> rfl

/-- The tail ends the message and has at most 15 bytes (R114). -/
theorem tailOf_spec {n o r : Nat} (h : tailOf n = (o, r)) : o + r = n ∧ r ≤ 15 := by
  obtain ⟨rfl, rfl⟩ := Prod.mk.inj ((tailOf_eq n).symm.trans h)
  split <;> omega

/-- The four working words that `Short` passes to the avalanche round (R117). -/
def shortWords (B : List Byte) (s0 s1 : Word) : Vector Word 4 :=
  let h := absorbShort B s0 s1
  foldTail B (put h 3 (h.get 3 + (BitVec.ofNat 64 B.length <<< 56))) (tailOf B.length).1 (tailOf B.length).2

theorem short_eq (B : List Byte) (s0 s1 : Word) :
    short B s0 s1 = ((shortEnd (shortWords B s0 s1)).get 0, (shortEnd (shortWords B s0 s1)).get 1) := by
  rw [short, shortWords]

/-- The length and then the tail, added to the words that the stripes leave. -/
theorem shortWords_eq {B : List Byte} {s0 s1 : Word} {h : Vector Word 4} {o r : Nat} (habsorb : absorbShort B s0 s1 = h)
    (htail : tailOf B.length = (o, r)) :
    shortWords B s0 s1 =
      #v[h.get 0, h.get 1,
        if r = 0 then h.get 2 + K else h.get 2 + lepad64 (slice B o (o + min r 8)),
        if r = 0 then h.get 3 + (BitVec.ofNat 64 B.length <<< 56) + K
        else h.get 3 + (BitVec.ofNat 64 B.length <<< 56) + lepad64 (slice B (o + 8) (o + r))] := by
  rw [shortWords, htail, habsorb, put_d, foldTail_eq]

/-- Of no bytes, no stripe is absorbed, the length is 0 and the tail is empty. -/
theorem shortWords_nil (s0 s1 : Word) : shortWords [] s0 s1 = #v[s0, s1, K + K, K + K] := by
  have hlen : K + (BitVec.ofNat 64 ([] : List Byte).length <<< 56) = K := by decide
  rw [shortWords_eq (h := #v[s0, s1, K, K]) (o := 0) (r := 0) rfl rfl, if_pos rfl, if_pos rfl]
  change #v[s0, s1, K + K, K + (BitVec.ofNat 64 ([] : List Byte).length <<< 56) + K] = _
  rw [hlen]

/-- A full stripe as R113 writes it: the first half mixed in, then the second half's words into `a` and `b`. -/
theorem fullStripe_eq_shortMix (B : List Byte) (h : Vector Word 4) (k : Nat) :
    fullStripe B h k =
      let g := shortMix #v[h.get 0, h.get 1, h.get 2 + le64 B (32 * k), h.get 3 + le64 B (32 * k + 8)]
      #v[g.get 0 + le64 B (32 * k + 16), g.get 1 + le64 B (32 * k + 24), g.get 2, g.get 3] := by
  rw [fullStripe_eq, halfStripe_eq]

/-- Settles O56: the stripes by `fullStripe_eq_shortMix` and `halfStripe_eq`, the tail's place by `tailOf_eq`, what goes into
the avalanche round by `shortWords_eq`. -/
theorem shortWrittenOut : Obligations.ShortWrittenOut := by
  refine ⟨fun B s0 s1 _ => ?_, fun s0 s1 => by rw [short_eq, shortWords_nil]⟩
  intro n q r0 mixIn hStripes h o r a b c d c' d' hEnd
  have habsorb : absorbShort B s0 s1 = h := by
    rw [absorbShort, funext₂ (fullStripe_eq_shortMix B), halfStripe_eq]
    rfl
  have htail : tailOf B.length = (o, r) := tailOf_eq _
  obtain ⟨hends, hr⟩ := tailOf_spec htail
  refine ⟨hends, hr, ?_⟩
  rw [short_eq, shortWords_eq habsorb htail]

end Sys2Proof.Machine
end

section
/-! The bulk mixer (spec/43_bulk_mixer.md R130 to R134): the stripe permutation written out, `Absorb` as a loop over the stripes,
the layout of the tagged final block, and `Bulk` line by line. -/

namespace Sys2Proof.Machine

/-! ### The stripe permutation -/

/-- The permutation runs its steps, on the words of the block, in the order of R131. -/
theorem mixStripe_eq_foldl (S : Vector Word 12) (X : List Byte) :
    mixStripe S X = indices12.foldl (mixStripeStep (words12 X)) S := by
  rw [mixStripe]

/-- Settles O49: on a vector whose words have names each step computes to its lines of R131, and the order is
`mixStripe_eq_foldl`. -/
theorem mixStripeWrittenOut : Obligations.MixStripeWrittenOut :=
  ⟨fun _ _ _ _ _ _ _ _ _ _ _ _ _ => ⟨rfl, rfl, rfl, rfl, rfl, rfl, rfl, rfl, rfl, rfl, rfl, rfl⟩, mixStripe_eq_foldl⟩

/-! ### Absorbing as a loop -/

/-- The recursion on what is left of the sequence is the loop over the stripes' indices (R134). -/
theorem absorbStripes_eq_foldl (n : Nat) (A : Vector Word 12) (Y : List Byte) (P : Params) :
    absorbStripes n A Y P =
      (List.range n).foldl (fun A j => mixStripe A (slice Y (96 * j) (96 * j + 96)) P) A := by
  induction n with
  | zero => rfl
  | succ n ih =>
    rw [absorbStripes_add, ih, List.range_succ, List.foldl_append, List.foldl_cons, List.foldl_nil, slice,
      Nat.add_sub_cancel_left]
    rfl

/-- Whole stripes first, then the rest (R134). -/
theorem absorb_append {A : Vector Word 12} {Y Z : List Byte} {P : Params} (hY : Y.length % 96 = 0) :
    absorb A (Y ++ Z) P = absorb (absorb A Y P) Z P := by
  have hcount : (Y ++ Z).length / 96 = Y.length / 96 + Z.length / 96 := by
    rw [List.length_append]
    omega
  have hwhole : 96 * (Y.length / 96) = Y.length := Nat.mul_div_cancel' (Nat.dvd_of_mod_eq_zero hY)
  rw [absorb, hcount, absorbStripes_add, absorbStripes_append _ _ _ _ _ hwhole.le, hwhole, List.drop_left]
  rfl

/-- Settles O52: `absorbStripes_eq_foldl` and `absorb_append`. -/
theorem absorbIsStripeByStripe : Obligations.AbsorbIsStripeByStripe :=
  ⟨fun S Y _ => absorbStripes_eq_foldl _ S Y params, fun _ => rfl, fun _ _ _ h => absorb_append h⟩

/-! ### The tagged final block, byte by byte -/

section
variable {T : List Byte}

theorem tagBlock_getElem?_leftover {k : Nat} (hk : k < T.length) : (tagBlock T)[k]? = T[k]? := by
  rw [tagBlock, List.append_assoc, List.getElem?_append_left hk]

theorem tagBlock_getElem?_padding {k : Nat} (hT : T.length ≤ k) (hk : k ≤ 94) : (tagBlock T)[k]? = some 0 := by
  rw [tagBlock, List.append_assoc, List.getElem?_append_right hT,
    List.getElem?_append_left (by rw [zeros_length]; omega), zeros, List.getElem?_replicate_of_lt (by omega)]

theorem tagBlock_getElem?_tag (hT : T.length ≤ 95) : (tagBlock T)[95]? = some (BitVec.ofNat 8 T.length) := by
  have hfront : (T ++ zeros (95 - T.length)).length = 95 := by
    rw [List.length_append, zeros_length]
    omega
  rw [tagBlock, List.getElem?_append_right hfront.le, hfront]
  rfl

end

/-- The top lane is what the lanes below it leave. -/
theorem laneSum_div (f : Nat → Byte) (n : Nat) : laneSum f (n + 1) / 2 ^ (8 * n) = (f n).toNat := by
  rw [laneSum_succ, Nat.add_mul_div_right _ _ (Nat.two_pow_pos _), Nat.div_eq_of_lt (laneSum_lt f n), Nat.zero_add]

/-- The top byte of a word is the last of its eight bytes (R90). -/
theorem le64_top (B : List Byte) (o : Nat) : (le64 B o).toNat / 2 ^ 56 = (B.getD (o + 7) 0).toNat := by
  rw [le64_toNat]
  exact laneSum_div _ 7

/-- The tag is the top byte of the block's last word (R132). -/
theorem words12_tagBlock_top {T : List Byte} (hT : T.length ≤ 95) :
    ((words12 (tagBlock T)).get 11).toNat / 2 ^ 56 = T.length := by
  calc ((words12 (tagBlock T)).get 11).toNat / 2 ^ 56
      = ((tagBlock T).getD 95 0).toNat := by rw [get_words12, le64_top]; rfl
    _ = (BitVec.ofNat 8 T.length).toNat := by
        rw [List.getD_eq_getElem?_getD, tagBlock_getElem?_tag hT, Option.getD_some]
    _ = T.length := by rw [BitVec.toNat_ofNat, Nat.mod_eq_of_lt (by omega)]

/-- Settles O53: the block's length, its three ranges of bytes, and the tag as a part of the last word. -/
theorem tagBlockLayout : Obligations.TagBlockLayout := fun _ hT =>
  ⟨tagBlock_length hT, fun _ hk => tagBlock_getElem?_leftover hk, fun _ hlo hhi => tagBlock_getElem?_padding hlo hhi,
    tagBlock_getElem?_tag hT, words12_tagBlock_top hT⟩

/-! ### The whole bulk hash -/

/-- Settles O57: what `Bulk` absorbs is every whole stripe of the message, by `absorb_take`; then `absorbStripes_eq_foldl`, with the
seeds written out by `seedAcc_eq`. -/
theorem bulkWrittenOut : Obligations.BulkWrittenOut := by
  intro B s0 s1 n H T G
  have hleftover : T.length = B.length % 96 := by
    rw [List.length_drop]
    omega
  refine ⟨hleftover, ?_⟩
  rw [bulk, absorb_take _ _ _ _ (Nat.mul_div_le _ _), absorbStripes_eq_foldl, seedAcc_eq]
  rfl

end Sys2Proof.Machine
end

section
/-! The streaming commands (spec/44_streaming.md R140 to R152): what INIT, UPDATE and FINALIZE do to their context, the one form
that is refused, and that INIT, any stream of host events and FINALIZE answer the one-shot hash of the bytes that the stream
feeds. -/

namespace Sys2Proof.Machine

/-! ### INIT and the count -/

/-- `SeedAcc` written out, in any configuration (R130). -/
theorem seedAcc_eq_words (s0 s1 : Word) (P : Params) :
    seedAcc s0 s1 P = #v[s0, s1, P.K, s0, s1, P.K, s0, s1, P.K, s0, s1, P.K] := rfl

/-- Settles O17: `execInit_eq`, with the seeded accumulator written out. -/
theorem initSeedsTheContext : Obligations.InitSeedsTheContext := fun s0 s1 s => by
  rw [← seedAcc_eq_words s0 s1 s.config]
  exact execInit_eq s0 s1 s

/-- Settles O21: `add96_fst` and `add96_snd`, at R9's `CW` = 64 and at any other. -/
theorem add96DetectsOverflow : Obligations.Add96DetectsOverflow := by
  refine ⟨fun p v => ⟨?_, ?_, by omega⟩, fun p v P => ⟨add96_fst p v P, add96_snd p v P⟩⟩
  · exact add96_fst p v params
  · exact add96_snd p v params

/-- Settles O22: no turn leaves a count of `CW` bits as it is; any turns leave what `foldStripes_pcnt` and `foldStripes_ovf`
say. -/
theorem foldLoopCountsItsStripes : Obligations.FoldLoopCountsItsStripes := by
  intro n S s hcount
  rw [foldStripes_pcnt, foldStripes_ovf]
  by_cases hn : n = 0
  · subst hn
    exact ⟨by rw [if_pos rfl, Nat.mul_zero, Nat.add_zero, Nat.mod_eq_of_lt hcount],
      or_congr_right (by omega)⟩
  · exact ⟨if_neg hn, or_congr_right (and_iff_right (Nat.pos_of_ne_zero hn))⟩

/-- The count and the flag after the fold loop are `Add96` once a turn (R144). -/
theorem foldStripes_count (n : Nat) (S : List Byte) (s : State) :
    ((foldStripes n S s).pcnt, (foldStripes n S s).ovf) =
      (List.range n).foldl (fun c _ => add96 c.1 c.2 s.config) (s.pcnt, s.ovf) := by
  induction n generalizing S s with
  | zero => rfl
  | succ n ih =>
    rw [foldStripes_succ, ih, List.range_succ_eq_map, List.foldl_cons, List.foldl_map]
    rfl

/-! ### UPDATE -/

theorem execUpdate_of_not_inited (ptr len : Word) (s : State) (hin : s.inited = false) :
    execUpdate ptr len s = .next { s with response := some ⟨2, 0, 0⟩ } := by
  rw [execUpdate, if_pos hin]
  rfl

/-- A readable UPDATE of at least one byte absorbs its message (R147). -/
theorem execUpdate_absorbs {ptr len : Word} {s : State} (hin : s.inited = true) (hread : CanRead s ptr len) (hlen : len ≠ 0) :
    execUpdate ptr len s = .next { absorbChunk (message s ptr len) s with response := some ⟨0, 0, 0⟩ } :=
  (execUpdate_of_canRead ptr len s hin hread).resolve_left fun h => hlen h.1

/-- A refused read takes the context away (R185). -/
theorem execUpdate_of_refused {ptr len : Word} {s : State} (hin : s.inited = true) (htop : ¬ PassesTop s.config ptr len)
    (hrefused : RefusedSomewhere s ptr len) :
    execUpdate ptr len s = .next { invalidate s with response := some ⟨4, 0, 0⟩ } := by
  rcases execUpdate_cases ptr len s with ⟨h, _⟩ | ⟨_, rfl, _⟩ | ⟨_, h, _⟩ | ⟨_, _, _, e⟩ | ⟨_, _, h, _⟩
  · exact absurd (hin.symm.trans h) (by decide)
  · exact absurd hrefused (canRead_zero s ptr).2
  · exact absurd h htop
  · exact e
  · exact absurd hrefused h.2

theorem absorbChunk_eq_appendChunk {M : List Byte} {s : State} (hsmall : s.small = true) (hlen : s.clen.val + M.length < 192) :
    absorbChunk M s = appendChunk M s := by
  rcases absorbChunk_cases M s with ⟨_, _, e⟩ | ⟨h, _⟩
  · exact e
  · exact absurd h (not_or.mpr ⟨(small_iff_not_large s.toContext).mp hsmall, by omega⟩)

theorem absorbChunk_eq_foldChunk {M : List Byte} {s : State} (h : s.large = true ∨ 192 ≤ s.clen.val + M.length) :
    absorbChunk M s = foldChunk M s := by
  rcases absorbChunk_cases M s with ⟨hsmall, hlt, _⟩ | ⟨_, e⟩
  · exact absurd h (not_or.mpr ⟨(small_iff_not_large s.toContext).mp hsmall, by omega⟩)
  · exact e

/-- A context is Large after a message exactly when it was or the total reaches 192 (R140). -/
theorem absorbChunk_large_iff (M : List Byte) (s : State) :
    (absorbChunk M s).large = true ↔ s.large = true ∨ 192 ≤ s.clen.val + M.length := by
  rcases absorbChunk_cases M s with ⟨hsmall, hlt, e⟩ | ⟨h, e⟩ <;> rw [e]
  · have hnot := (small_iff_not_large s.toContext).mp hsmall
    exact iff_of_false hnot (not_or.mpr ⟨hnot, by omega⟩)
  · exact iff_of_true (foldChunk_large M s (h.imp_right (by omega))) h

/-- A store leaves the carry bytes before and after it. -/
theorem storeCarry_get_outside {C : Vector Byte 192} {off : Nat} {bs : List Byte} {k : Fin 192}
    (h : k.val < off ∨ off + bs.length ≤ k.val) : (storeCarry C off bs).get k = C.get k := by
  rw [storeCarry_get]
  split
  · exact List.getD_eq_default _ _ (by omega)
  · rfl

/-- Settles O18: UPDATE asks for the context first, and for a length second. -/
theorem zeroLengthUpdateIsNoOp : Obligations.ZeroLengthUpdateIsNoOp := fun s ptr =>
  ⟨fun hin => by rw [exec, execUpdate, if_neg (by simp [hin]), if_pos rfl]; rfl, execUpdate_of_not_inited ptr 0 s⟩

/-- Settles O19: such an UPDATE is an append, whose carry is `carried_appendChunk` and, outside the message, the old one. -/
theorem updateAppendsWhileSmall : Obligations.UpdateAppendsWhileSmall := by
  intro s ptr len hin hread hlen hsmall htotal
  have hM : (message s ptr len).length = len.toNat := message_length s ptr len
  rw [← hM] at htotal ⊢
  refine ⟨{ appendChunk (message s ptr len) s with response := some ⟨0, 0, 0⟩ }, ?_, clen_appendChunk _ s htotal,
    carried_appendChunk _ s htotal, fun k hk => storeCarry_get_outside hk, rfl⟩
  rw [← absorbChunk_eq_appendChunk hsmall htotal]
  exact execUpdate_absorbs hin hread hlen

/-- Settles O20: such an UPDATE is a fold, whose accumulator, count and carry are those of the fold loop. -/
theorem updateFoldsWholeStripes : Obligations.UpdateFoldsWholeStripes := by
  intro s ptr len hin hread hlen hfold S n
  have hS : S.length = s.clen.val + len.toNat := by rw [List.length_append, carried_length, message_length]
  rw [← message_length s ptr len] at hfold
  refine ⟨{ foldChunk (message s ptr len) s with response := some ⟨0, 0, 0⟩ }, ?_, hS, ?_, foldStripes_count n S s,
    carried_foldChunk _ s, ?_, foldChunk_large _ s (hfold.imp_right (by omega)), ?_⟩
  · rw [← absorbChunk_eq_foldChunk hfold]
    exact execUpdate_absorbs hin hread hlen
  · exact (foldChunk_acc _ s).trans (absorbStripes_eq_foldl n s.acc S s.config)
  · rw [hS, ← message_length s ptr len]
    exact clen_foldChunk _ s
  · rw [foldChunk_frame]

/-! ### FINALIZE -/

theorem execFinalize_of_not_inited {s : State} (hin : s.inited = false) :
    execFinalize s = .next { s with response := some ⟨2, 0, 0⟩ } := by
  rw [execFinalize, if_pos hin]
  rfl

theorem execFinalize_of_small {s : State} (hin : s.inited = true) (hsmall : s.small = true) :
    execFinalize s = .next { s with
      response := some ⟨0, (short s.carried (s.acc.get 0) (s.acc.get 1) s.config).1,
        (short s.carried (s.acc.get 0) (s.acc.get 1) s.config).2⟩ } := by
  have hnot := (small_iff_not_large s.toContext).mp hsmall
  rcases execFinalize_cases s with ⟨h, _⟩ | ⟨_, _, e⟩ | ⟨_, h, _⟩ | ⟨_, h, _⟩
  · exact absurd (hin.symm.trans h) (by decide)
  · exact e
  · exact absurd h hnot
  · exact absurd h hnot

theorem execFinalize_of_large {s : State} (hin : s.inited = true) (hlarge : s.large = true) (hclen : s.clen.val ≤ 95) :
    execFinalize s = .next { s with
      response := some ⟨0, (endBlock s.acc (tagBlock s.carried) s.config).get 0,
        (endBlock s.acc (tagBlock s.carried) s.config).get 1⟩ } := by
  rcases execFinalize_cases s with ⟨h, _⟩ | ⟨_, h, _⟩ | ⟨_, _, _, e⟩ | ⟨_, _, h, _⟩
  · exact absurd (hin.symm.trans h) (by decide)
  · exact absurd hlarge ((small_iff_not_large s.toContext).mp h)
  · exact e
  · omega

/-- R149's three conditions are those of a Small context, which never carries more than 191 bytes. -/
theorem shortPath_iff_small (c : Context) : (c.ovf = false ∧ c.pcnt = 0 ∧ c.pcnt.toNat + c.clen.val < 192) ↔ c.small = true := by
  rw [isSmall_iff]
  refine and_congr_right fun _ => and_iff_left_of_imp fun hpcnt => ?_
  simp [hpcnt]

/-- Settles O27: R149's conditions tell Small from Large (`shortPath_iff_small`), and each answers its digest. -/
theorem finalizeReturnsTheDigest : Obligations.FinalizeReturnsTheDigest := by
  intro s
  refine ⟨execFinalize_of_not_inited, fun hin hshort => ?_, fun hin hlong hclen => ?_⟩
  · exact execFinalize_of_small hin ((shortPath_iff_small s.toContext).mp hshort)
  · have hlarge : s.large = true := of_not_not fun hnot =>
      hlong ((shortPath_iff_small s.toContext).mpr ((small_iff_not_large s.toContext).mpr hnot))
    exact execFinalize_of_large hin hlarge hclen

theorem execFinalize_refused_iff (s : State) (f : Refusal) :
    execFinalize s = .refused f ↔
      s.inited = true ∧ s.large = true ∧ 96 ≤ s.clen.val ∧ f = .finalizeCarryPastStripe := by
  rcases execFinalize_cases s with ⟨h, e⟩ | ⟨_, h, e⟩ | ⟨_, _, h, e⟩ | ⟨hin, hlarge, hclen, e⟩ <;> rw [e]
  · exact iff_of_false nofun fun ⟨hin, _⟩ => absurd (hin.symm.trans h) (by decide)
  · exact iff_of_false nofun fun ⟨_, hlarge, _⟩ => (small_iff_not_large s.toContext).mp h hlarge
  · exact iff_of_false nofun fun ⟨_, _, hclen, _⟩ => by omega
  · simp [hin, hlarge, hclen, eq_comm]

/-- Every command but FINALIZE answers, in every state. -/
theorem exec_answers_of_ne_finalize (i : Instr) (s : State) (hi : i ≠ .finalize) : ∃ t, exec i s = .next t := by
  by_cases hinit : ∃ a b, i = .init a b
  · obtain ⟨a, b, rfl⟩ := hinit
    exact ⟨_, execInit_eq a b s⟩
  by_cases hctx : NeedsContext i
  · obtain ⟨ptr, len, rfl⟩ := hctx.resolve_left hi
    rcases execUpdate_cases ptr len s with ⟨_, e⟩ | ⟨_, _, e⟩ | ⟨_, _, e⟩ | ⟨_, _, _, e⟩ | ⟨_, _, _, e⟩ <;> exact ⟨_, e⟩
  · obtain ⟨ptr, len, answer, -, -, hexec⟩ := exec_eq_oneShot i (fun a b h => hinit ⟨a, b, h⟩) hctx
    obtain ⟨r, hr, -⟩ := oneShot_answers ptr len (answer s.config) s s rfl
    exact ⟨_, (hexec s).trans hr⟩

/-- Settles O28: FINALIZE by its four cases; every other command answers. -/
theorem onlyFinalizeOutsideTheInvariantIsRefused : Obligations.OnlyFinalizeOutsideTheInvariantIsRefused := by
  intro i s f
  by_cases hi : i = .finalize
  · subst hi
    exact (execFinalize_refused_iff s f).trans (and_iff_right rfl).symm
  · obtain ⟨t, ht⟩ := exec_answers_of_ne_finalize i s hi
    rw [ht]
    exact iff_of_false nofun fun h => hi h.1

/-! ### The state machine and the boundary table -/

/-- A readable UPDATE completes, keeps the context, and leaves it Large exactly when it was or the total reaches 192 (R140). -/
theorem execUpdate_large_iff (s : State) (ptr len : Word) (hin : s.inited = true) (hread : CanRead s ptr len) :
    ∃ t, exec (.update ptr len) s = .next t ∧ t.inited = true ∧
      (t.large = true ↔ s.large = true ∨ 192 ≤ s.clen.val + len.toNat) := by
  rcases execUpdate_of_canRead ptr len s hin hread with ⟨rfl, e⟩ | e
  · exact ⟨_, e, hin, (or_iff_left (Nat.not_le_of_lt s.clen.isLt)).symm⟩
  · refine ⟨_, e, (absorbChunk_inited _ s).trans hin, ?_⟩
    rw [← message_length s ptr len]
    exact absorbChunk_large_iff _ s

/-- Settles O25: the rows of R140, each by what its command does. -/
theorem stateMachineTransitions : Obligations.StateMachineTransitions := by
  refine ⟨fun a b s => ⟨_, execInit_eq a b s, rfl, rfl⟩, fun i s hi hin => ?_, execUpdate_large_iff, fun s _ hcarry => ?_,
    fun s p n hin htop hrefused => ⟨_, execUpdate_of_refused hin htop hrefused, rfl⟩⟩
  · rcases hi with rfl | ⟨p, n, rfl⟩
    · exact ⟨_, execFinalize_of_not_inited hin, rfl⟩
    · exact ⟨_, execUpdate_of_not_inited p n s hin, rfl⟩
  · obtain ⟨r, hr⟩ := execFinalize_answers s fun hlarge => Nat.lt_succ_of_le (hcarry hlarge)
    exact ⟨_, hr, rfl⟩

section
variable {s0 s1 : Word} {T : List Byte} {s : State} (h : HoldsStream s.config s0 s1 T s.toContext)
include h

/-- A stream below 192 bytes is carried whole, and FINALIZE answers its short hash (R152). -/
theorem HoldsStream.short_rows (hlen : T.length < 192) :
    s.small = true ∧ s.pcnt = 0 ∧ s.clen.val = T.length ∧
      exec .finalize s = .next { s with response := some ⟨0, (short T s0 s1 s.config).1, (short T s0 s1 s.config).2⟩ } := by
  have hsmall := h.small_iff.mpr hlen
  obtain ⟨hpcnt, -, hacc, hcarried, hclen⟩ := h.small_state hsmall
  refine ⟨hsmall, hpcnt, hclen.symm, ?_⟩
  rw [exec, execFinalize_of_small h.initialised hsmall, hcarried, hacc, seedAcc_get_zero, seedAcc_get_one]

/-- From 192 bytes on every whole stripe is folded, the rest is carried and is the tag, and FINALIZE answers `End` (R152). -/
theorem HoldsStream.long_rows (hlen : 192 ≤ T.length) (hcount : T.length < 2 ^ s.config.countWidth.val) :
    s.large = true ∧ s.pcnt = BitVec.ofNat 64 (T.length - T.length % 96) ∧ s.clen.val = T.length % 96 ∧
      (tagBlock s.carried)[95]? = some (BitVec.ofNat 8 (T.length % 96)) ∧
      exec .finalize s = .next { s with
        response := some ⟨0, (endBlock s.acc (tagBlock s.carried) s.config).get 0,
          (endBlock s.acc (tagBlock s.carried) s.config).get 1⟩ } := by
  have hlarge : s.large = true := of_not_not fun hnot => by
    have := h.small_iff.mp ((small_iff_not_large s.toContext).mpr hnot)
    omega
  obtain ⟨hclen, n, -, hmul, hpcnt, -, hsum, -, -⟩ := h.large_state hlarge
  have hrest : s.clen.val = T.length % 96 := by omega
  rw [Nat.mod_eq_of_lt (by omega)] at hpcnt
  refine ⟨hlarge, ?_, hrest, ?_, execFinalize_of_large h.initialised hlarge hclen⟩
  · rw [show T.length - T.length % 96 = s.pcnt.toNat by omega, BitVec.ofNat_toNat, BitVec.setWidth_eq]
  · rw [tagBlock_getElem?_tag (by rwa [carried_length]), carried_length, hrest]

end

/-- Settles O32: each row is its length's whole stripes and rest. -/
theorem boundaryTable : Obligations.BoundaryTable := by
  intro s0 s1 T s hcount h
  refine ⟨fun hlen => h.short_rows ?_, fun row hrow hlen => ?_⟩
  · simp only [List.mem_cons, List.not_mem_nil, or_false] at hlen
    omega
  · have hrange : (192 ≤ row.1 ∧ row.1 ≤ 288) ∧ row.1 - row.1 % 96 = row.2.1 ∧ row.1 % 96 = row.2.2 := by
      have hrows : ∀ row ∈ [(192, 192, 0), (193, 192, 1), (287, 192, 95), (288, 288, 0)],
          (192 ≤ row.1 ∧ row.1 ≤ 288) ∧ row.1 - row.1 % 96 = row.2.1 ∧ row.1 % 96 = row.2.2 := by decide
      exact hrows row hrow
    obtain ⟨⟨hlo, hhi⟩, hfolded, hrest⟩ := hrange
    rw [← hlen] at hlo hhi hfolded hrest
    rw [← hfolded, ← hrest]
    exact h.long_rows hlo (by omega)

end Sys2Proof.Machine
end

section
/-! Streams of host events (spec/44_streaming.md R150, R151): that no command is refused while every context can be finalized, what
each event of a stream does to the context that it feeds, and that INIT, the stream and FINALIZE answer the one-shot hash. -/

namespace Sys2Proof.Machine

/-! ### Contexts that FINALIZE does not refuse -/

/-- FINALIZE has a meaning on the context, should it be initialised (R149, log entry 9): the part of `ContextOk` that keeps a
block running. -/
def Context.Finalizable (c : Context) : Prop := c.inited = true → c.large = true → c.clen.val < 96

/-- So it is of every context of the block. -/
def State.Finalizable (s : State) : Prop := ∀ j c, s.contextAt j = some c → c.Finalizable

theorem HoldsStream.finalizable {P : Params} {s0 s1 : Word} {T : List Byte} {c : Context} (h : HoldsStream P s0 s1 T c) :
    c.Finalizable := fun _ hlarge => Nat.lt_succ_of_le (h.large_state hlarge).1

theorem absorbChunk_finalizable (M : List Byte) (s : State) : (absorbChunk M s).toContext.Finalizable := by
  intro _ hlarge
  rcases absorbChunk_cases M s with ⟨hsmall, _, e⟩ | ⟨_, e⟩ <;> rw [e] at hlarge ⊢
  · exact absurd hlarge ((small_iff_not_large s.toContext).mp hsmall)
  · rw [clen_foldChunk]
    exact Nat.mod_lt _ (by decide)

/-- A command that answers leaves its context so. -/
theorem exec_finalizable {i : Instr} {s t : State} (hexec : exec i s = .next t) (h : s.toContext.Finalizable) :
    t.toContext.Finalizable := by
  rcases exec_context_cases i s t hexec with ⟨a, b, _, ht⟩ | ht | ⟨_, ht⟩ | ⟨_, M, ht⟩ <;> rw [ht]
  · exact (holdsStream_seeded s.config a b s.toContext).finalizable
  · exact h
  · exact fun hin => nomatch hin
  · exact absorbChunk_finalizable M s

/-- Every command answers on such a context. -/
theorem exec_answers_of_finalizable (i : Instr) {s : State} (h : s.toContext.Finalizable) : ∃ t, exec i s = .next t := by
  cases hexec : exec i s with
  | next t => exact ⟨t, rfl⟩
  | fault f => exact nomatch f
  | refused f =>
    obtain ⟨_, hin, hlarge, hclen, _⟩ := (onlyFinalizeOutsideTheInvariantIsRefused i s f).mp hexec
    exact absurd (h hin hlarge) (by omega)

/-! ### A command for one context of the block -/

/-- A command that a descriptor decodes to, run with its context in place, is what processing the descriptor does. -/
theorem processOn_of_exec {k : Nat} {d : Descriptor} {i : Instr} {s u : State} (hk : k ≤ s.others.length)
    (hdecode : decode d s.config = .ok i) (hexec : exec i (swapContext k s) = .next u) :
    processOn k d s = .next (swapContext k u) :=
  processOn_next k d s u hk
    ((processDescriptor_of_decode d _ i (by rw [swapContext_config]; exact hdecode)).trans hexec)

/-- After the exchange back, the number names the context that the command left. -/
theorem contextAt_swapContext_own {k : Nat} {u : State} (hk : k ≤ u.others.length) :
    (swapContext k u).contextAt k = some u.toContext := by
  rw [← swapContext_toContext k _ (by rwa [swapContext_length]), swapContext_swapContext]

theorem le_of_contextAt {k : Nat} {s : State} {c : Context} (h : s.contextAt k = some c) : k ≤ s.others.length :=
  Nat.le_of_lt_succ (List.getElem?_eq_some_iff.mp h).1

/-- What a command leaves at its own number: no context, the one that was there, or what the command makes of it. -/
theorem processOn_own_cases {k : Nat} {d : Descriptor} {s t : State} (h : processOn k d s = .next t) :
    (s.others.length < k ∧ t.contextAt k = s.contextAt k) ∨
    (∃ e, decode d s.config = .error e ∧ t.contextAt k = s.contextAt k) ∨
    ∃ i u, decode d s.config = .ok i ∧ exec i (swapContext k s) = .next u ∧
      s.contextAt k = some (swapContext k s).toContext ∧ t.contextAt k = some u.toContext := by
  rcases processOn_next_cases k d s t h with ⟨hk, rfl⟩ | ⟨hk, u, hu, rfl⟩
  · exact .inl ⟨hk, rfl⟩
  · have hs := swapContext_toContext k s hk
    obtain ⟨-, hothers, -⟩ := processDescriptor_frame _ _ _ hu
    have hown : (swapContext k u).contextAt k = some u.toContext :=
      contextAt_swapContext_own (by rwa [hothers, swapContext_length])
    rw [← swapContext_config k s]
    rcases processDescriptor_cases d (swapContext k s) with ⟨e, he, hproc⟩ | ⟨i, hi, hproc⟩ <;> rw [hproc] at hu
    · cases hu
      exact .inr (.inl ⟨e, he, hown.trans hs⟩)
    · exact .inr (.inr ⟨i, u, hi, hu, hs.symm, hown⟩)

/-- In a block that is so, a command for any number answers. -/
theorem processOn_answers (k : Nat) (d : Descriptor) {s : State} (h : s.Finalizable) : ∃ t, processOn k d s = .next t := by
  by_cases hk : k ≤ s.others.length
  · have hctx := h k _ (swapContext_toContext k s hk).symm
    have hu : ∃ u, processDescriptor d (swapContext k s) = .next u := by
      rcases processDescriptor_cases d (swapContext k s) with ⟨_, _, e⟩ | ⟨i, _, e⟩ <;> rw [e]
      · exact ⟨_, rfl⟩
      · exact exec_answers_of_finalizable i hctx
    obtain ⟨u, hu⟩ := hu
    exact ⟨_, processOn_next k d s u hk hu⟩
  · exact ⟨_, processOn_absent k d s (by omega)⟩

theorem finalizable_of_sameOutside {k : Nat} {s t : State} (hsame : SameOutside k s t)
    (hothers : ∀ j c, j ≠ k → s.contextAt j = some c → c.Finalizable) (hown : ∀ c, t.contextAt k = some c → c.Finalizable) :
    t.Finalizable := by
  obtain ⟨-, -, hctx, -⟩ := hsame
  intro j c hj
  by_cases hjk : j = k
  · exact hown c (hjk ▸ hj)
  · exact hothers j c hjk (hctx j hjk ▸ hj)

theorem finalizable_processOn {k : Nat} {d : Descriptor} {s t : State} (h : s.Finalizable) (ht : processOn k d s = .next t) :
    t.Finalizable := by
  refine finalizable_of_sameOutside (processOn_sameOutside k d s t ht) (fun j c _ hj => h j c hj) fun c hc => ?_
  rcases processOn_own_cases ht with ⟨_, hsame⟩ | ⟨_, _, hsame⟩ | ⟨i, u, _, hexec, hs, hu⟩
  · exact h k c (hsame ▸ hc)
  · exact h k c (hsame ▸ hc)
  · obtain rfl : u.toContext = c := Option.some.inj (hu.symm.trans hc)
    exact exec_finalizable hexec (h k _ hs)

/-! ### What an event feeds the stream, and whether the stream goes on -/

/-- Whether a message can be read depends on the configuration and the platform. -/
theorem canRead_congr {s t : State} (hcfg : t.config = s.config) (hun : t.unreadable = s.unreadable) :
    CanRead t = CanRead s := by
  funext ptr len
  simp only [CanRead, RefusedSomewhere, State.readable, hcfg, hun]

theorem KeepsStream.congr {k : Nat} {s t : State} {e : HostEvent} (hcfg : t.config = s.config)
    (hun : t.unreadable = s.unreadable) (h : KeepsStream k s e) : KeepsStream k t e := by
  cases e with
  | command j d => simpa only [KeepsStream, hcfg, canRead_congr hcfg hun] using h
  | write | reset => exact h

section
variable {P : Params} {j k : Nat} {d : Descriptor} (m : Memory) (es : List HostEvent)

theorem streamBytes_update {ptr len : Word} (hdecode : decode d P = .ok (.update ptr len)) :
    streamBytes P k m (.command j d :: es) =
      (if j = k then m.bytes ptr.toNat len.toNat else []) ++ streamBytes P k m es := by
  rw [streamBytes, hdecode]

theorem streamBytes_of_not_update (hdecode : ∀ ptr len, decode d P ≠ .ok (.update ptr len)) :
    streamBytes P k m (.command j d :: es) = streamBytes P k m es := by
  rw [streamBytes]
  split
  · exact absurd ‹_› (hdecode _ _)
  · rfl

/-- What a command feeds stands before what the later events feed. -/
theorem streamBytes_command :
    streamBytes P k m (.command j d :: es) = streamBytes P k m [.command j d] ++ streamBytes P k m es := by
  by_cases hupd : ∃ ptr len, decode d P = .ok (.update ptr len)
  · obtain ⟨ptr, len, hdecode⟩ := hupd
    rw [streamBytes_update m es hdecode, streamBytes_update m [] hdecode, streamBytes, List.append_nil]
  · have hdecode : ∀ ptr len, decode d P ≠ .ok (.update ptr len) := fun ptr len h => hupd ⟨ptr, len, h⟩
    rw [streamBytes_of_not_update m es hdecode, streamBytes_of_not_update m [] hdecode]
    rfl

/-- A command for another context feeds nothing. -/
theorem streamBytes_command_of_ne (hjk : j ≠ k) : streamBytes P k m [.command j d] = [] := by
  by_cases hupd : ∃ ptr len, decode d P = .ok (.update ptr len)
  · obtain ⟨ptr, len, hdecode⟩ := hupd
    rw [streamBytes_update m [] hdecode, if_neg hjk]
    rfl
  · exact streamBytes_of_not_update m [] fun ptr len h => hupd ⟨ptr, len, h⟩

end

/-! ### A stream fed to one context -/

/-- Context `k` of the block holds the stream `T`, and no context is one on which FINALIZE is refused. -/
structure Feeds (k : Nat) (s0 s1 : Word) (T : List Byte) (s : State) : Prop where
  finalizable : s.Finalizable
  holds : ∃ c, s.contextAt k = some c ∧ HoldsStream s.config s0 s1 T c

section
variable {k : Nat} {s0 s1 : Word} {T : List Byte} {s : State}

/-- A command that the stream goes on after, on the context of the stream: an UPDATE extends what the context holds by its
message, any other leaves it (R31). -/
theorem exec_keepsStream {d : Descriptor} {i : Instr} {u : State} (hkeeps : KeepsStream k s (.command k d))
    (hdecode : decode d s.config = .ok i) (hexec : exec i (swapContext k s) = .next u)
    (h : HoldsStream s.config s0 s1 T (swapContext k s).toContext) :
    HoldsStream s.config s0 s1 (T ++ streamBytes s.config k s.mem [.command k d]) u.toContext := by
  obtain ⟨-, hupdate, hother, -⟩ := contextHoldsItsStream
  rw [← swapContext_config k s] at h
  rw [KeepsStream, hdecode] at hkeeps
  by_cases hupd : ∃ p n, i = .update p n
  · obtain ⟨p, n, rfl⟩ := hupd
    have hread : CanRead (swapContext k s) p n := by
      rw [canRead_congr (swapContext_config k s) (swapContext_unreadable k s)]
      exact hkeeps rfl
    obtain ⟨t, ht, hstream⟩ := hupdate s0 s1 T _ p n h hread
    obtain rfl := Host.Outcome.next.inj (ht.symm.trans hexec)
    rw [streamBytes_update _ _ hdecode, if_pos rfl, streamBytes, List.append_nil]
    simpa only [message, swapContext_config, swapContext_mem] using hstream
  · have hinit : ∀ a b, i ≠ .init a b := by
      rintro a b rfl
      exact hkeeps rfl
    obtain ⟨t, ht, hstream⟩ := hother s0 s1 T _ i h hinit fun p n hi => hupd ⟨p, n, hi⟩
    obtain rfl := Host.Outcome.next.inj (ht.symm.trans hexec)
    rw [streamBytes_of_not_update _ _ fun p n hd => hupd ⟨p, n, Except.ok.inj (hdecode.symm.trans hd)⟩, streamBytes,
      List.append_nil]
    rwa [swapContext_config] at hstream

/-- A command for any context of the block keeps the stream of context `k` (R36, R151). -/
theorem feeds_processOn {j : Nat} {d : Descriptor} {t : State} (h : Feeds k s0 s1 T s)
    (hkeeps : KeepsStream k s (.command j d)) (ht : processOn j d s = .next t) :
    Feeds k s0 s1 (T ++ streamBytes s.config k s.mem [.command j d]) t := by
  obtain ⟨hcfg, -, hothers, -⟩ := processOn_sameOutside j d s t ht
  obtain ⟨c, hc, hstream⟩ := h.holds
  refine ⟨finalizable_processOn h.finalizable ht, ?_⟩
  rw [hcfg]
  by_cases hjk : j = k
  · subst hjk
    rcases processOn_own_cases ht with ⟨hk, _⟩ | ⟨e, he, hsame⟩ | ⟨i, u, hi, hexec, hs, hu⟩
    · exact absurd (le_of_contextAt hc) (by omega)
    · rw [streamBytes_of_not_update _ _ (by simp [he]), streamBytes, List.append_nil]
      exact ⟨c, hsame.trans hc, hstream⟩
    · obtain rfl : (swapContext j s).toContext = c := Option.some.inj (hs.symm.trans hc)
      exact ⟨_, hu, exec_keepsStream hkeeps hi hexec hstream⟩
  · rw [streamBytes_command_of_ne _ hjk, List.append_nil]
    exact ⟨c, (hothers k (Ne.symm hjk)).trans hc, hstream⟩

/-- A step of the stream: the event is taken, and its bytes stand before those of the later events. -/
theorem feeds_step {e : HostEvent} {rest : List HostEvent} (h : Feeds k s0 s1 T s) (hin : s.inbox = e :: rest)
    (hkeeps : KeepsStream k s e) :
    ∃ t M, step s = .next t ∧ t.inbox = rest ∧ t.config = s.config ∧ t.unreadable = s.unreadable ∧
      Feeds k s0 s1 (T ++ M) t ∧
      ∀ es, streamBytes s.config k s.mem (e :: es) = M ++ streamBytes s.config k t.mem es := by
  have hrest : Feeds k s0 s1 T { s with inbox := rest } := ⟨h.finalizable, h.holds⟩
  cases e with
  | command j d =>
    obtain ⟨t, ht⟩ := processOn_answers j d hrest.finalizable
    obtain ⟨hcfg, -, -, hmem, hun, hinbox⟩ := processOn_sameOutside j d _ t ht
    refine ⟨t, _, (step_command s j d rest hin).trans ht, hinbox, hcfg, hun, feeds_processOn hrest hkeeps ht, fun es => ?_⟩
    rw [hmem]
    exact streamBytes_command s.mem es
  | write a v =>
    refine ⟨hostWrite a v { s with inbox := rest }, [], by rw [step, hin], rfl, rfl, rfl, ?_, fun es => rfl⟩
    rw [List.append_nil]
    exact ⟨h.finalizable, h.holds⟩
  | reset => exact hkeeps.elim

/-- A whole stream of events, by induction on the list. -/
theorem feeds_run (n : Nat) {es rest : List HostEvent} (h : Feeds k s0 s1 T s) (hin : s.inbox = es ++ rest)
    (hkeeps : ∀ e ∈ es, KeepsStream k s e) :
    ∃ t, Host.Core.run Sys2Proof.core (es.length + n) s = Host.Core.run Sys2Proof.core n t ∧ t.inbox = rest ∧
      t.config = s.config ∧ Feeds k s0 s1 (T ++ streamBytes s.config k s.mem es) t := by
  induction es generalizing s T with
  | nil => exact ⟨s, by rw [List.length_nil, Nat.zero_add], hin, rfl, by rwa [streamBytes, List.append_nil]⟩
  | cons e es ih =>
    obtain ⟨u, M, hu, huin, hucfg, huun, hfeeds, hbytes⟩ := feeds_step h hin (hkeeps e List.mem_cons_self)
    obtain ⟨t, hrun, htin, htcfg, ht⟩ := ih hfeeds huin fun e' he' =>
      (hkeeps e' (List.mem_cons_of_mem e he')).congr hucfg huun
    refine ⟨t, ?_, htin, htcfg.trans hucfg, ?_⟩
    · rw [List.length_cons, Nat.add_right_comm, run_succ_of_next _ s u hu, hrun]
    · rwa [hbytes, ← List.append_assoc, ← hucfg]

/-- INIT of a context of a block whose other contexts can be finalized begins the empty stream there (R141). -/
theorem step_init_feeds (s0 s1 : Word) {rest : List HostEvent} (hk : k ≤ s.others.length)
    (hothers : ∀ j c, j ≠ k → s.contextAt j = some c → c.Finalizable) (hin : s.inbox = issue k (.init s0 s1) :: rest) :
    ∃ t, step s = .next t ∧ t.inbox = rest ∧ t.config = s.config ∧ t.unreadable = s.unreadable ∧ t.mem = s.mem ∧
      Feeds k s0 s1 [] t := by
  obtain ⟨hinit, -⟩ := contextHoldsItsStream
  obtain ⟨u, hu, hucfg, hstream⟩ := hinit s0 s1 (swapContext k { s with inbox := rest })
  have hproc := processOn_of_exec (s := { s with inbox := rest }) hk (decode_encode (.init s0 s1) s.config rfl) hu
  have hsame := processOn_sameOutside _ _ _ _ hproc
  obtain ⟨hcfg, hlen, -, hmem, hun, hinbox⟩ := id hsame
  have hown : (swapContext k u).contextAt k = some u.toContext :=
    contextAt_swapContext_own (by rw [← swapContext_length k u, hlen]; exact hk)
  refine ⟨_, (step_command s k _ rest hin).trans hproc, hinbox, hcfg, hun, hmem, ?_, u.toContext, hown, ?_⟩
  · refine finalizable_of_sameOutside hsame hothers fun c hc => ?_
    obtain rfl : u.toContext = c := Option.some.inj (hown.symm.trans hc)
    exact hstream.finalizable
  · rwa [swapContext_config, hucfg]

/-- FINALIZE answers the one-shot hash of the stream (R149). -/
theorem step_finalize_of_feeds {rest : List HostEvent} (h : Feeds k s0 s1 T s) (hin : s.inbox = issue k .finalize :: rest) :
    ∃ t, step s = .next t ∧ t.inbox = rest ∧
      t.response = some ⟨0, (hash128 T s0 s1 s.config).1, (hash128 T s0 s1 s.config).2⟩ := by
  obtain ⟨c, hc, hstream⟩ := h.holds
  have hk := le_of_contextAt hc
  obtain rfl : (swapContext k { s with inbox := rest }).toContext = c :=
    Option.some.inj ((swapContext_toContext k { s with inbox := rest } hk).trans hc)
  have hexec := execFinalize_of_holdsStream (s := swapContext k { s with inbox := rest })
    (by rw [swapContext_config]; exact hstream)
  have hproc := processOn_of_exec (s := { s with inbox := rest }) (i := .finalize) hk (decode_encode .finalize s.config rfl) hexec
  exact ⟨_, (step_command s k _ rest hin).trans hproc, by simp, by simp⟩

end

/-- Settles O30: INIT begins the empty stream (`step_init_feeds`), every event extends it by its bytes (`feeds_run`), and FINALIZE
hashes it (`step_finalize_of_feeds`). -/
theorem streamingEqualsOneShot : Obligations.StreamingEqualsOneShot := by
  intro s k s0 s1 es rest hk hothers hin hkeeps
  obtain ⟨u, hu, huin, hucfg, huun, humem, hbegun⟩ := step_init_feeds s0 s1 hk
    (fun j c hjk hc hinit hlarge => (hothers j c hjk hc hinit).carry_lt_stripe hlarge) hin
  obtain ⟨v, hv, hvin, hvcfg, hfed⟩ := feeds_run 1 hbegun huin fun e he => (hkeeps e he).congr hucfg huun
  obtain ⟨t, ht, htin, hresponse⟩ := step_finalize_of_feeds hfed hvin
  refine ⟨t, ?_, htin, ?_⟩
  · rw [run_succ_of_next (es.length + 1) s u hu, hv, run_succ_of_next 0 v t ht]
    rfl
  · rwa [List.nil_append, hvcfg, hucfg, humem] at hresponse

end Sys2Proof.Machine
end

section
/-! The one-shot commands (spec/45_public_api.md R170 to R174): the dispatch by length, and what each of the three answers on a
readable message and on each fault. -/

namespace Sys2Proof.Machine

/-! ### The dispatch by length -/

section
variable {B : List Byte} (s0 s1 : Word) (P : Params)

theorem hash128_eq_short (h : B.length ≤ 191) : hash128 B s0 s1 P = short B s0 s1 P :=
  if_pos (Nat.lt_succ_of_le h)

theorem hash128_eq_bulk (h : 192 ≤ B.length) : hash128 B s0 s1 P = bulk B s0 s1 P :=
  if_neg (Nat.not_lt_of_le h)

end

/-- Settles O36: `hash128_eq_short` and `hash128_eq_bulk`. -/
theorem dispatchIsStrictAt192 : Obligations.DispatchIsStrictAt192 := fun _ s0 s1 P =>
  ⟨hash128_eq_short s0 s1 P, hash128_eq_bulk s0 s1 P⟩

/-! ### The three commands -/

section
variable {ptr len : Word} {s : State} (answer : List Byte → Response)

theorem oneShot_of_passesTop (h : PassesTop s.config ptr len) :
    oneShot ptr len answer s = .next { s with response := some ⟨3, 0, 0⟩ } := by
  rcases oneShot_cases ptr len answer s with ⟨_, e⟩ | ⟨hinside, _, _⟩ | ⟨⟨hinside, _⟩, _⟩
  · exact e
  · exact absurd h hinside
  · exact absurd h hinside

theorem oneShot_of_refused (hinside : ¬ PassesTop s.config ptr len) (h : RefusedSomewhere s ptr len) :
    oneShot ptr len answer s = .next { s with response := some ⟨4, 0, 0⟩ } := by
  rcases oneShot_cases ptr len answer s with ⟨htop, _⟩ | ⟨_, _, e⟩ | ⟨⟨_, hread⟩, _⟩
  · exact absurd htop hinside
  · exact e
  · exact absurd h hread

end

/-- HASH128 on a readable message (R171). -/
theorem execHash128_of_canRead (s0 s1 : Word) {ptr len : Word} {s : State} (h : CanRead s ptr len) :
    execHash128 s0 s1 ptr len s = .next { s with
      response := some ⟨0, (hash128 (message s ptr len) s0 s1 s.config).1,
        (hash128 (message s ptr len) s0 s1 s.config).2⟩ } :=
  oneShot_of_canRead _ h

/-- Settles O33: HASH128 is a one-shot command; with `LEN = 0` its message is empty, and so short. -/
theorem hash128ReturnsBothWords : Obligations.Hash128ReturnsBothWords := by
  intro s s0 s1 ptr len
  refine ⟨execHash128_of_canRead s0 s1, ?_, oneShot_of_passesTop _, oneShot_of_refused _⟩
  have hempty : message s ptr 0 = [] := List.eq_nil_of_length_eq_zero (message_length s ptr 0)
  have hanswer := execHash128_of_canRead s0 s1 (canRead_zero s ptr)
  rwa [hempty, hash128_eq_short s0 s1 s.config (B := []) (Nat.zero_le 191)] at hanswer

/-- Settles O34: HASH64 is a one-shot command whose answer drops the second digest word. -/
theorem hash64ReturnsTheFirstWord : Obligations.Hash64ReturnsTheFirstWord := fun _ _ _ _ =>
  ⟨oneShot_of_canRead _, oneShot_of_passesTop _, oneShot_of_refused _⟩

/-- HASH32 on a readable message (R173), the widening and the kept half as arithmetic. -/
theorem execHash32_of_canRead (seed : Half) {ptr len : Word} {s : State} (h : CanRead s ptr len) :
    execHash32 seed ptr len s = .next { s with
      response := some ⟨0, BitVec.ofNat 64 ((hash128 (message s ptr len) (BitVec.ofNat 64 seed.toNat)
        (BitVec.ofNat 64 seed.toNat) s.config).1.toNat % 2 ^ 32), 0⟩ } := by
  rw [← widenSeed_eq, ← lowHalf_eq]
  exact oneShot_of_canRead _ h

/-- Settles O35: `execHash32_of_canRead`, the seed 0 included, and the faults of a one-shot command. -/
theorem hash32ReturnsTheLowHalf : Obligations.Hash32ReturnsTheLowHalf :=
  ⟨fun _ seed _ _ => ⟨execHash32_of_canRead seed, oneShot_of_passesTop _, oneShot_of_refused _⟩,
    fun _ _ _ => execHash32_of_canRead 0⟩

end Sys2Proof.Machine
end

section
/-! The exceptions (spec/60_exceptions.md R180 to R192): no command stops the machine, each fault is the first failing check and
leaves what R182 to R187 say, an overflow of the count is none, and neither the earlier response nor another context has an
effect on a command. -/

namespace Sys2Proof.Machine

/-! ### No step stops the machine -/

/-- The invariant keeps every context one that FINALIZE gives a meaning to (R26, R31 item 3). -/
theorem Inv.finalizable {s : State} (h : Inv s) : s.Finalizable := fun _ c hj hin =>
  ((h.contexts c (List.mem_of_getElem? hj)).2 hin).carry_lt_stripe

/-- Settles O60: the invariant makes every context finalizable, so a command for any number answers; every other event does in
any state. -/
theorem stepNeverStops : Obligations.StepNeverStops := by
  intro s h
  rcases step_cases s with ⟨_, e⟩ | ⟨k, d, rest, _, e⟩ | ⟨_, _, _, _, e⟩ | ⟨_, _, e⟩ <;> rw [e]
  · exact ⟨_, rfl⟩
  · exact processOn_answers k d (s := { s with inbox := rest }) h.finalizable
  · exact ⟨_, rfl⟩
  · exact ⟨_, rfl⟩

/-! ### The descriptors that select a command -/

/-- The rows of the opcode map are the descriptors with zero reserved bits and an opcode 1 to 6 (R74, R75). -/
theorem selectsCommand_iff_row (d : Descriptor) : SelectsCommand d ↔ ∃ o : Opcode, d.w0 = o.word := by
  constructor
  · rintro ⟨hrsv, hlow, hhigh⟩
    obtain h | h | h | h | h | h : d.w0.toNat = 1 ∨ d.w0.toNat = 2 ∨ d.w0.toNat = 3 ∨ d.w0.toNat = 4 ∨ d.w0.toNat = 5 ∨
        d.w0.toNat = 6 := by omega
    · exact ⟨.init, BitVec.eq_of_toNat_eq h⟩
    · exact ⟨.update, BitVec.eq_of_toNat_eq h⟩
    · exact ⟨.finalize, BitVec.eq_of_toNat_eq h⟩
    · exact ⟨.hash128, BitVec.eq_of_toNat_eq h⟩
    · exact ⟨.hash64, BitVec.eq_of_toNat_eq h⟩
    · exact ⟨.hash32, BitVec.eq_of_toNat_eq h⟩
  · rintro ⟨o, hw0⟩
    rw [SelectsCommand, hw0]
    cases o <;> decide

theorem decodes_iff_selectsCommand (d : Descriptor) (P : Params) : (∃ i, decode d P = .ok i) ↔ SelectsCommand d := by
  simp [decode_eq_ok_iff, selectsCommand_iff_row]

theorem processDescriptor_of_not_selectsCommand {d : Descriptor} (s : State) (hd : ¬ SelectsCommand d) :
    processDescriptor d s = .next { s with response := some ⟨1, 0, 0⟩ } := by
  rcases processDescriptor_cases d s with ⟨_, _, e⟩ | ⟨i, hi, _⟩
  · exact e
  · exact absurd ((decodes_iff_selectsCommand d s.config).mp ⟨i, hi⟩) hd

/-- Settles O3: the decoder answers a command for the rows of the opcode map, and its errors raise `IllegalCommand`. -/
theorem illegalDescriptorsRaise : Obligations.IllegalDescriptorsRaise :=
  ⟨decodes_iff_selectsCommand, fun _ s => processDescriptor_of_not_selectsCommand s⟩

/-! ### What a command does not depend on -/

/-- Processing a descriptor neither reads nor writes the other contexts and the pending events, and does not read the
response. -/
theorem processDescriptor_outside {d : Descriptor} {s t : State} (o : List Context) (b : List HostEvent) (r : Option Response)
    (h : processDescriptor d s = .next t) :
    processDescriptor d { s with others := o, inbox := b, response := r } = .next { t with others := o, inbox := b } := by
  rw [processDescriptor] at h ⊢
  cases hd : decode d s.config with
  | error e => rw [hd] at h; cases h; rfl
  | ok i => rw [hd] at h; exact exec_outside i s t o b r h

/-- A command for context `k` gives one response and one context `k` in every block that agrees on what the command uses. -/
theorem processOn_agrees {k : Nat} {d : Descriptor} {s u t : State} {c : Context} (hs : s.contextAt k = some c)
    (hu : u.contextAt k = some c) (hcfg : u.config = s.config) (hmem : u.mem = s.mem) (hun : u.unreadable = s.unreadable)
    (hdraws : u.draws = s.draws) (h : processOn k d s = .next t) :
    ∃ v, processOn k d u = .next v ∧ v.response = t.response ∧ v.contextAt k = t.contextAt k := by
  have hks := le_of_contextAt hs
  have hku := le_of_contextAt hu
  rcases processOn_next_cases k d s t h with ⟨habsent, _⟩ | ⟨_, w, hw, rfl⟩
  · omega
  have hctx : (swapContext k u).toContext = (swapContext k s).toContext := by
    apply Option.some.inj
    rw [swapContext_toContext k u hku, swapContext_toContext k s hks, hu, hs]
  have hstate : swapContext k u = { swapContext k s with
      others := (swapContext k u).others, inbox := u.inbox, response := u.response } := by
    rw [swapContext_frame k u, swapContext_frame k s, hctx, hcfg, hmem, hun, hdraws]
  have hv := processDescriptor_outside (swapContext k u).others u.inbox u.response hw
  rw [← hstate] at hv
  obtain ⟨-, hothers, -⟩ := processDescriptor_frame _ _ _ hw
  refine ⟨_, processOn_next k d u _ hku hv, by simp, ?_⟩
  rw [contextAt_swapContext_own (by simpa using hku), contextAt_swapContext_own (by simpa [hothers] using hks)]

/-- Settles O8: the frame of a command for one context, and `processOn_agrees`. -/
theorem contextsAreIndependent : Obligations.ContextsAreIndependent := by
  refine ⟨fun s t k d rest hin h => ?_, fun s u t k d rest rest' c hs hu hsc huc hcfg hmem hun hdraws h => ?_⟩
  · rw [step_command s k d rest hin] at h
    exact processOn_sameOutside k d _ t h
  · rw [step_command s k d rest hs] at h
    rw [step_command u k d rest' hu]
    exact processOn_agrees (s := { s with inbox := rest }) (u := { u with inbox := rest' }) hsc huc hcfg hmem hun hdraws h

/-- A command has one outcome whatever the stored response is, its refusal included. -/
theorem exec_withResponse (i : Instr) (s : State) (r : Option Response) : exec i { s with response := r } = exec i s := by
  cases h : exec i s with
  | next t =>
    obtain ⟨-, hothers, -, -, hinbox⟩ := exec_frame i s t h
    exact (exec_outside i s t s.others s.inbox r h).trans (by rw [← hothers, ← hinbox])
  | fault f => exact nomatch f
  | refused f =>
    have hrefused := (onlyFinalizeOutsideTheInvariantIsRefused i s f).mp h
    exact (onlyFinalizeOutsideTheInvariantIsRefused i { s with response := r } f).mpr hrefused

theorem processDescriptor_withResponse (d : Descriptor) (s : State) (r : Option Response) :
    processDescriptor d { s with response := r } = processDescriptor d s := by
  rw [processDescriptor, processDescriptor]
  cases decode d s.config with
  | error e => rfl
  | ok i => exact exec_withResponse i s r

/-- The exchange of contexts passes the stored response by. -/
theorem swapContext_withResponse (k : Nat) (s : State) (r : Option Response) :
    swapContext k { s with response := r } = { swapContext k s with response := r } := by
  cases k with
  | zero => rfl
  | succ j =>
    cases h : s.others[j]? with
    | none => rw [swapContext_none j s h, swapContext_none j { s with response := r } h]
    | some c => rw [swapContext_succ j s c h, swapContext_succ j { s with response := r } c h]

theorem processOn_withResponse (k : Nat) (d : Descriptor) (s : State) (r : Option Response) :
    processOn k d { s with response := r } = processOn k d s := by
  rw [processOn, processOn, swapContext_withResponse, processDescriptor_withResponse]
  rfl

/-- Settles O10: `processOn_withResponse`, for the descriptor that is next. -/
theorem earlierResponseHasNoEffect : Obligations.EarlierResponseHasNoEffect := by
  intro s k d rest r hin
  rw [step_command s k d rest hin, step_command { s with response := r } k d rest hin]
  exact processOn_withResponse k d { s with inbox := rest } r

/-! ### The checks of R77 -/

/-- The check of R77 step 2 fails. -/
def ContextMissing (i : Instr) (s : State) : Prop := NeedsContext i ∧ s.inited = false

theorem not_contextMissing_iff {i : Instr} {s : State} : ¬ ContextMissing i s ↔ (NeedsContext i → s.inited = true) := by
  simp [ContextMissing]

/-- The command has a message operand, and `Q` holds of it. -/
def OperandMeets (Q : Word → Word → Prop) (i : Instr) : Prop := ∃ ptr len, messageOperand i = some (ptr, len) ∧ Q ptr len

theorem operandMeets_iff {Q : Word → Word → Prop} {i : Instr} {ptr len : Word} (hmsg : messageOperand i = some (ptr, len)) :
    OperandMeets Q i ↔ Q ptr len := by
  simp [OperandMeets, hmsg]

/-- Everything a command can answer, by the first of the checks that fails (R77, R186), with the state that each fault leaves;
code 0 when every check passes. -/
theorem exec_response_cases {i : Instr} {s t : State} {r : Response} (h : exec i s = .next t) (hr : t.response = some r) :
    (r = ⟨2, 0, 0⟩ ∧ ContextMissing i s ∧ t = { s with response := some r }) ∨
    (r = ⟨3, 0, 0⟩ ∧ ¬ ContextMissing i s ∧ OperandMeets (PassesTop s.config) i ∧ t = { s with response := some r }) ∨
    (r = ⟨4, 0, 0⟩ ∧ ¬ ContextMissing i s ∧ ¬ OperandMeets (PassesTop s.config) i ∧ OperandMeets (RefusedSomewhere s) i ∧
      ((∀ p n, i ≠ .update p n) ∧ t = { s with response := some r } ∨
        (∃ p n, i = .update p n) ∧ t = { invalidate s with response := some r })) ∨
    (r.r0 = 0 ∧ ¬ ContextMissing i s ∧ ¬ OperandMeets (PassesTop s.config) i ∧ ¬ OperandMeets (RefusedSomewhere s) i) := by
  have hpresent : ∀ {i : Instr}, s.inited = true → ¬ ContextMissing i s := fun hin => not_contextMissing_iff.mpr fun _ => hin
  have hreads : ∀ {i : Instr} {p n : Word}, messageOperand i = some (p, n) → CanRead s p n →
      ¬ OperandMeets (PassesTop s.config) i ∧ ¬ OperandMeets (RefusedSomewhere s) i := fun hmsg hread =>
    ⟨mt (operandMeets_iff hmsg).mp hread.1, mt (operandMeets_iff hmsg).mp hread.2⟩
  rcases exec_next_cases i s t h with ⟨a, b, rfl, rfl⟩ | ⟨hctx, hin, rfl⟩ | ⟨p, n, hmsg, hin, htop, rfl⟩ |
    ⟨p, n, hmsg, hctx, _, hinside, hrefused, rfl⟩ | ⟨p, n, rfl, hin, hinside, hrefused, rfl⟩ |
    ⟨p, n, hmsg, hctx, _, hread, r', hcode, rfl⟩ | ⟨p, rfl, hin, rfl⟩ | ⟨p, n, rfl, hin, _, hread, rfl⟩ |
    ⟨rfl, hin, r', hcode, rfl⟩ <;> cases hr
  · exact .inr (.inr (.inr ⟨rfl, by simp [ContextMissing, NeedsContext], nofun, nofun⟩))
  · exact .inl ⟨rfl, ⟨hctx, hin⟩, rfl⟩
  · exact .inr (.inl ⟨rfl, not_contextMissing_iff.mpr hin, ⟨p, n, hmsg, htop⟩, rfl⟩)
  · exact .inr (.inr (.inl ⟨rfl, fun hmissing => hctx hmissing.1, mt (operandMeets_iff hmsg).mp hinside, ⟨p, n, hmsg, hrefused⟩,
      .inl ⟨fun p n hi => hctx (.inr ⟨p, n, hi⟩), rfl⟩⟩))
  · exact .inr (.inr (.inl ⟨rfl, hpresent hin, mt (operandMeets_iff rfl).mp hinside, ⟨p, n, rfl, hrefused⟩,
      .inr ⟨⟨p, n, rfl⟩, rfl⟩⟩))
  · exact .inr (.inr (.inr ⟨hcode, fun hmissing => hctx hmissing.1, hreads hmsg hread⟩))
  · exact .inr (.inr (.inr ⟨rfl, hpresent hin, hreads rfl (canRead_zero s p)⟩))
  · exact .inr (.inr (.inr ⟨rfl, hpresent hin, hreads rfl hread⟩))
  · exact .inr (.inr (.inr ⟨hcode, hpresent hin, nofun, nofun⟩))

/-! ### What each fault leaves -/

theorem exec_of_notInitialised {i : Instr} {s : State} (hctx : NeedsContext i) (hin : s.inited = false) :
    exec i s = .next { s with response := some ⟨2, 0, 0⟩ } := by
  rcases hctx with rfl | ⟨ptr, len, rfl⟩
  · exact execFinalize_of_not_inited hin
  · exact execUpdate_of_not_inited ptr len s hin

theorem execUpdate_of_passesTop {ptr len : Word} {s : State} (hin : s.inited = true) (htop : PassesTop s.config ptr len) :
    execUpdate ptr len s = .next { s with response := some ⟨3, 0, 0⟩ } := by
  rcases execUpdate_cases ptr len s with ⟨h, _⟩ | ⟨_, hzero, _⟩ | ⟨_, _, e⟩ | ⟨_, hinside, _, _⟩ | ⟨_, _, hread, _⟩
  · exact absurd (hin.symm.trans h) (by decide)
  · exact absurd hzero htop.1
  · exact e
  · exact absurd htop hinside
  · exact absurd htop hread.1

theorem exec_of_passesTop {i : Instr} {s : State} {ptr len : Word} (hmsg : messageOperand i = some (ptr, len))
    (htop : PassesTop s.config ptr len) (hin : NeedsContext i → s.inited = true) :
    exec i s = .next { s with response := some ⟨3, 0, 0⟩ } := by
  cases i with
  | init | finalize => cases hmsg
  | update p n => cases hmsg; exact execUpdate_of_passesTop (hin (.inr ⟨_, _, rfl⟩)) htop
  | hash128 | hash64 | hash32 => cases hmsg; exact oneShot_of_passesTop _ htop

/-- A refused read in a one-shot command. -/
theorem exec_of_refused {i : Instr} {s : State} {ptr len : Word} (hmsg : messageOperand i = some (ptr, len))
    (hctx : ¬ NeedsContext i) (hinside : ¬ PassesTop s.config ptr len) (hrefused : RefusedSomewhere s ptr len) :
    exec i s = .next { s with response := some ⟨4, 0, 0⟩ } := by
  cases i with
  | init | finalize => cases hmsg
  | update p n => exact absurd (.inr ⟨p, n, rfl⟩) hctx
  | hash128 | hash64 | hash32 => cases hmsg; exact oneShot_of_refused _ hinside hrefused

/-- A command acts on the context that is in place. -/
theorem exec_sameOutside {i : Instr} {s t : State} (h : exec i s = .next t) : SameOutside 0 s t := by
  obtain ⟨hcfg, hothers, hmem, hun, hinbox⟩ := exec_frame i s t h
  refine ⟨hcfg, by rw [hothers], fun j hj => ?_, hmem, hun, hinbox⟩
  obtain ⟨j, rfl⟩ := Nat.exists_eq_succ_of_ne_zero hj
  rw [contextAt_succ, contextAt_succ, hothers]

/-! ### The four faults -/

/-- Settles O13: `exec_of_notInitialised`, and of the answers only that one has code 2. -/
theorem notInitialisedFault : Obligations.NotInitialisedFault := by
  refine ⟨fun i s => exec_of_notInitialised, fun i s t r h hr hcode => ?_⟩
  rcases exec_response_cases h hr with ⟨_, hmissing, _⟩ | ⟨rfl, _⟩ | ⟨rfl, _⟩ | ⟨hzero, _⟩
  · exact hmissing
  · exact absurd hcode (by decide)
  · exact absurd hcode (by decide)
  · exact absurd (hzero.symm.trans hcode) (by decide)

/-- Settles O14: `exec_of_passesTop`, and of the answers only that one has code 3. -/
theorem addressRangeFault : Obligations.AddressRangeFault := by
  refine ⟨fun i s ptr len => exec_of_passesTop, fun i s t r h hr hcode => ?_⟩
  rcases exec_response_cases h hr with ⟨rfl, _⟩ | ⟨_, _, htop, _⟩ | ⟨rfl, _⟩ | ⟨hzero, _⟩
  · exact absurd hcode (by decide)
  · exact htop
  · exact absurd hcode (by decide)
  · exact absurd (hzero.symm.trans hcode) (by decide)

/-- Settles O15: `exec_of_refused` and `execUpdate_of_refused`, and of the answers only those have code 4. -/
theorem refusedReadFault : Obligations.RefusedReadFault := by
  refine ⟨fun i s ptr len => exec_of_refused, fun s ptr len hin hinside hrefused => ?_, fun i s t r h hr hcode => ?_⟩
  · have h : exec (.update ptr len) s = _ := execUpdate_of_refused hin hinside hrefused
    exact ⟨_, h, rfl, rfl, exec_sameOutside h⟩
  · rcases exec_response_cases h hr with ⟨rfl, _⟩ | ⟨rfl, _⟩ | ⟨_, _, _, hrefused, _⟩ | ⟨hzero, _⟩
    · exact absurd hcode (by decide)
    · exact absurd hcode (by decide)
    · exact hrefused
    · exact absurd (hzero.symm.trans hcode) (by decide)

/-! ### The faults of a descriptor -/

section
variable {d : Descriptor} {i : Instr} {P : Params} (hdecode : decode d P = .ok i)
include hdecode

theorem needsContext_iff_of_decode : NeedsContext i ↔ d.w0 = 2 ∨ d.w0 = 3 := by
  obtain ⟨o, hw0, rfl⟩ := (decode_eq_ok_iff d i P).mp hdecode
  rw [hw0]
  cases o <;> simp [NeedsContext, Descriptor.operands, Opcode.word, Opcode.code]

theorem isUpdate_iff_of_decode : (∃ ptr len, i = .update ptr len) ↔ d.w0 = 2 := by
  obtain ⟨o, hw0, rfl⟩ := (decode_eq_ok_iff d i P).mp hdecode
  rw [hw0]
  cases o <;> simp [Descriptor.operands, Opcode.word, Opcode.code]

theorem operandMeets_iff_of_decode (Q : Word → Word → Prop) :
    OperandMeets Q i ↔ (d.w0 = 2 ∨ d.w0 = 4 ∨ d.w0 = 5 ∨ d.w0 = 6) ∧ Q (d.ptr P) (d.len P) := by
  obtain ⟨o, hw0, rfl⟩ := (decode_eq_ok_iff d i P).mp hdecode
  rw [hw0]
  cases o <;> simp [OperandMeets, messageOperand, Descriptor.operands, Opcode.word, Opcode.code]

end

/-- Settles O11: a descriptor that selects no command answers code 1; the cases of any other are those of
`exec_response_cases`, its checks read off the descriptor. -/
theorem faultIsTheFirstFailingCheck : Obligations.FaultIsTheFirstFailingCheck := by
  intro d s t r h hr usesContext hasMessage ptr len
  by_cases hsel : SelectsCommand d
  · obtain ⟨i, hi⟩ := (decodes_iff_selectsCommand d s.config).mpr hsel
    rw [processDescriptor_of_decode d s i hi] at h
    have hmissing : ContextMissing i s ↔ usesContext ∧ s.inited = false := and_congr_left' (needsContext_iff_of_decode hi)
    have htop : OperandMeets (PassesTop s.config) i ↔ hasMessage ∧ PassesTop s.config ptr len := operandMeets_iff_of_decode hi _
    have hrefused : OperandMeets (RefusedSomewhere s) i ↔ hasMessage ∧ RefusedSomewhere s ptr len :=
      operandMeets_iff_of_decode hi _
    rw [← hmissing, ← htop, ← hrefused]
    refine ⟨fun hno => absurd hsel hno, ?_⟩
    rcases exec_response_cases h hr with ⟨rfl, h2, _⟩ | ⟨rfl, h2, h3, _⟩ | ⟨rfl, h2, h3, h4, _⟩ | ⟨h0, h2, h3, h4⟩
    · simp [h2]
    · simp [h2, h3]
    · simp [h2, h3, h4]
    · simp [h0, h2, h3, h4]
  · rw [processDescriptor_of_not_selectsCommand s hsel] at h
    cases h
    cases hr
    simp [hsel]

/-- Settles O12: the answers of `exec_response_cases` and `IllegalCommand`; the refused read of UPDATE is that of the
descriptors with `W0` = 2. -/
theorem faultsArePrecise : Obligations.FaultsArePrecise := by
  intro d s t r h hr hfault
  rcases processDescriptor_cases d s with ⟨_, _, e⟩ | ⟨i, hi, e⟩ <;> rw [e] at h
  · cases h
    cases hr
    exact ⟨rfl, rfl, fun _ => rfl, fun hcode => absurd hcode.1 (by decide)⟩
  rcases exec_response_cases h hr with ⟨rfl, _, ht⟩ | ⟨rfl, _, _, ht⟩ | ⟨rfl, _, _, _, ⟨hother, ht⟩ | ⟨hupdate, ht⟩⟩ | ⟨hzero, _⟩
  · exact ⟨rfl, rfl, fun _ => ht, fun hcode => absurd hcode.1 (by decide)⟩
  · exact ⟨rfl, rfl, fun _ => ht, fun hcode => absurd hcode.1 (by decide)⟩
  · refine ⟨rfl, rfl, fun _ => ht, fun ⟨_, hw0⟩ => ?_⟩
    obtain ⟨p, n, hi'⟩ := (isUpdate_iff_of_decode hi).mpr hw0
    exact absurd hi' (hother p n)
  · exact ⟨rfl, rfl, fun hno => absurd ⟨rfl, (isUpdate_iff_of_decode hi).mp hupdate⟩ hno,
      fun _ => ⟨by rw [ht]; rfl, exec_sameOutside h⟩⟩
  · exact absurd hzero hfault

/-! ### Overflow -/

/-- Settles O23: such an UPDATE is a fold, which sets the flag because the true sum reaches `2^CW`; and a set flag is the first
half of Large. -/
theorem overflowIsNotAFault : Obligations.OverflowIsNotAFault := by
  intro s ptr len hin hread hlen hfold hcount hsum
  have hovf : (absorbChunk (message s ptr len) s).ovf = true := by
    rw [← message_length s ptr len] at hfold hsum
    rw [← carried_length, ← List.length_append] at hsum
    rw [absorbChunk_eq_foldChunk hfold, foldChunk_ovf]
    exact (foldLoopCountsItsStripes _ _ s hcount).2.mpr (.inr hsum)
  exact ⟨_, execUpdate_absorbs hin hread hlen, rfl, hovf, (isLarge_iff _).mpr (.inl hovf),
    (absorbChunk_inited _ s).trans hin⟩

end Sys2Proof.Machine
end
